-- ==== Sys2Proof/Syntax.lean ====
section
/-! DEFINITION. The instructions: the five commands of the opcode map (R53), one constructor for each row of
spec/opcode_table.json. -/

namespace Sys2Proof

/-- A command. No command carries an operand or an immediate: operands are the fixed registers `A`, `B`, `M` and the
result goes to `R` (R52). -/
inductive Instr where
  /-- MODMUL: modular multiplication (R80). -/
  | modmul
  /-- MODEXP: modular exponentiation (R85). -/
  | modexp
  /-- GCD: greatest common divisor (R90). -/
  | gcd
  /-- MODINV: modular multiplicative inverse (R95). -/
  | modinv
  /-- ISPRIME: deterministic primality test (R100). -/
  | isprime
  deriving DecidableEq, Repr

end Sys2Proof
end

