-- ==== Sys2Proof/WellFormed.lean ====
section
/-! DEFINITION. Well-formedness. A command has no fields (R52), so every `Instr` is well-formed; what can be ill-formed is
the command byte, whose two fields format `C` constrains (R51, R53, R54). -/

namespace Sys2Proof

/-- The two fields of format `C`, the only format (R51). -/
structure FormatC where
  /-- bits 7:4 -/
  zero : BitVec 4
  /-- bits 3:0 -/
  op : BitVec 4
  deriving DecidableEq, Repr

/-- Check 1 of a command byte: the field `zero` is `0b0000` (R51). -/
def FormatC.zeroOk (f : FormatC) : Bool := f.zero == 0#4

/-- Check 2 of a command byte: the opcode is one that the opcode map assigns, 1 to 5 (R53). -/
def FormatC.opOk (f : FormatC) : Bool := 1 ≤ f.op.toNat && f.op.toNat ≤ 5

/-- A command byte's fields are those of a legal command (R53, R54). -/
def FormatC.wellFormed (f : FormatC) : Bool := f.zeroOk && f.opOk

/-- Every command is well-formed: it has no operand that could be out of range (R52). -/
def Instr.wellFormed (i : Instr) : Bool :=
  match i with
  | .modmul => true
  | .modexp => true
  | .gcd => true
  | .modinv => true
  | .isprime => true

end Sys2Proof
end

