-- ==== Sys2Proof/Decode.lean ====
section
/-! DEFINITION. Decoding a command byte, total on the 256 bytes (R54), and the encoder, from the opcode map (R51, R53). -/

namespace Sys2Proof

/-- Why a command byte encodes no command (R54). -/
inductive IllegalByte where
  /-- Bits 7:4 are not `0b0000` (R51): the bytes `0x10` to `0xFF`. -/
  | zeroFieldNotZero
  /-- Bits 7:4 are zero and the opcode is unassigned (R53): the bytes `0x00` and `0x06` to `0x0F`. -/
  | opcodeUnassigned
  deriving DecidableEq, Repr

/-- What a command byte decodes to. -/
inductive Decoded where
  /-- One of the five commands. -/
  | command (i : Instr)
  /-- ILLEGAL (R54). -/
  | illegal (why : IllegalByte)
  deriving DecidableEq, Repr

/-- The fields of a command byte (R51). -/
def FormatC.ofByte (c : BitVec 8) : FormatC := { zero := c.extractLsb' 4 4, op := c.extractLsb' 0 4 }

/-- The command byte made of two fields: `zero` in bits 7:4, `op` in bits 3:0 (R51). -/
def FormatC.toByte (f : FormatC) : BitVec 8 := f.zero ++ f.op

/-- The command of an opcode (R53), if one is assigned. -/
def commandOfOp (op : BitVec 4) : Option Instr :=
  match op.toNat with
  | 1 => some .modmul
  | 2 => some .modexp
  | 3 => some .gcd
  | 4 => some .modinv
  | 5 => some .isprime
  | _ => none

/-- The decoder of 30_encoding.md section 4 (R51, R53, R54). -/
def decode (c : BitVec 8) : Decoded :=
  if (FormatC.ofByte c).zero = 0#4 then
    match commandOfOp (FormatC.ofByte c).op with
    | some i => .command i
    | none => .illegal .opcodeUnassigned
  else .illegal .zeroFieldNotZero

/-- The opcode of a command (R53). -/
def Instr.op (i : Instr) : BitVec 4 :=
  match i with
  | .modmul => 0b0001#4
  | .modexp => 0b0010#4
  | .gcd => 0b0011#4
  | .modinv => 0b0100#4
  | .isprime => 0b0101#4

/-- The command byte of a command (R51, R53). -/
def encode (i : Instr) : BitVec 8 := FormatC.toByte { zero := 0#4, op := i.op }

/-- The instruction the decoder reads from a row of spec/opcode_table.json: the command byte is the low 8 bits (R50), and
bits at `nbits` and above are 0. -/
def decodeTableWord (nbits w : Nat) : Option Instr :=
  match decode (BitVec.ofNat 8 (w % 2 ^ nbits)) with
  | .command i => some i
  | .illegal _ => none

end Sys2Proof
end

