-- ==== Sys2Proof/Config.lean ====
section
/-! DEFINITION. What an implementation fixes and the spec leaves open: the operand width `W`, the latency `LAT`, and the
free values. None of the `opaque` constants below has a body, so nothing can be proved of a value of one. -/

namespace Sys2Proof

/-- How far the operand width of this block exceeds the least width, 8, that R4 allows: any natural number. -/
opaque Config.extraWidth : Nat

/-- The operand width `W` in bits (R4): a parameter with `W >= 8` and no other constraint. -/
def Config.W : Nat := Config.extraWidth + 8

/-- The values of `unspecified(W)` (R7), numbered by the order in which they are drawn: a free value for each number. -/
opaque Config.unspecifiedWord : Nat → BitVec Config.W

/-- How far the latency of a command exceeds one cycle: any natural number, depending on the command byte and on the
values of `A`, `B` and `M` (R4). -/
opaque Config.extraLatency : BitVec 8 → BitVec Config.W → BitVec Config.W → BitVec Config.W → Nat

/-- The latency `LAT` (R4): from acceptance to completion, in clock cycles; finite and at least 1. -/
def Config.LAT (c : BitVec 8) (a b m : BitVec Config.W) : Nat := Config.extraLatency c a b m + 1

theorem Config.eight_le_W : 8 ≤ Config.W := Nat.le_add_left 8 Config.extraWidth

theorem Config.one_le_LAT (c : BitVec 8) (a b m : BitVec Config.W) : 1 ≤ Config.LAT c a b m :=
  Nat.le_add_left 1 _

end Sys2Proof
end

