-- ==== Sys2Proof/Word.lean ====
section
/-! DEFINITION. The word type: an unsigned integer in `[0, 2^W)` (R4, R5). Exact results over the natural numbers are
narrowed to a word only together with a proof that they fit, so no result is ever truncated (R81). -/

namespace Sys2Proof

/-- The contents of a data register, and of one bus word: `W` bits, unsigned (R5, R10). -/
abbrev Word : Type := BitVec Config.W

/-- The word whose value is exactly `n`. -/
def Word.exact (n : Nat) (h : n < 2 ^ Config.W) : Word := BitVec.ofNatLT n h

@[simp] theorem Word.toNat_exact (n : Nat) (h : n < 2 ^ Config.W) : (Word.exact n h).toNat = n := rfl

/-- Every 8-bit value fits in a word, since `W >= 8` (R4). -/
theorem Word.byte_lt {n : Nat} (h : n < 2 ^ 8) : n < 2 ^ Config.W :=
  Nat.lt_of_lt_of_le h (Nat.pow_le_pow_right (by decide) Config.eight_le_W)

/-- A remainder by a nonzero word fits in a word. -/
theorem Word.mod_lt (n : Nat) {m : Word} (h : m.toNat ≠ 0) : n % m.toNat < 2 ^ Config.W :=
  Nat.lt_trans (Nat.mod_lt n (Nat.pos_of_ne_zero h)) m.isLt

/-- The word 0. -/
def Word.zero : Word := Word.exact 0 (Word.byte_lt (by decide))

/-- The word 1. -/
def Word.one : Word := Word.exact 1 (Word.byte_lt (by decide))

@[simp] theorem Word.toNat_zero : Word.zero.toNat = 0 := rfl

@[simp] theorem Word.toNat_one : Word.one.toNat = 1 := rfl

end Sys2Proof
end

