-- ==== Sys2Proof/Machine/State.lean ====
section
/-! DEFINITION. The state of the block, as plain data: the registers of 10_state.md, and three fields of the model's own
(the events still to come, the values returned to the host, the counter of free values). -/

namespace Sys2Proof.Machine

/-- The status word, by its fields (R13). Bit 3 is reserved and always reads 0, so it needs no field; `Status.word` in
Flags.lean is the word that software reads. DEDUCED, safe (log 14). -/
structure Status where
  /-- Bit 0: a command is in flight (R14). -/
  busy : Bool
  /-- Bit 1: a completion has not been acknowledged (R15). -/
  done : Bool
  /-- Bit 2: the most recently completed command ended with an error (R16). -/
  err : Bool
  /-- Bits 7:4: the error code of the most recently completed command (R16). -/
  ecode : BitVec 4
  deriving DecidableEq, Repr

/-- A host transaction (R7, R8). The data of a write is a word: a wider value cannot be presented to the block (R4). -/
inductive Transaction where
  /-- `RegRead(idx)`. -/
  | regRead (idx : BitVec 3)
  /-- `RegWrite(idx, v)`. -/
  | regWrite (idx : BitVec 3) (v : Word)
  /-- `Reset`. -/
  | reset
  deriving DecidableEq, Repr

/-- What can happen next: a transaction of the host, or a turn of the engine, which takes its one step, `Complete`, if
that is enabled (R8, R68). DESIGN CHOICE, safe (log 3). -/
inductive Event where
  | host (t : Transaction)
  | complete
  deriving DecidableEq, Repr

/-- The state. -/
structure State where
  /-- `x[0]`, the first operand (R10, R11). -/
  A : Word
  /-- `x[1]`, the second operand (R10, R11). -/
  B : Word
  /-- `x[2]`, the modulus (R10, R11). -/
  M : Word
  /-- `x[3]`, the result (R10, R12). -/
  R : Word
  /-- `STATUS` (R13). -/
  status : Status
  /-- `OPC`, the hidden latch of the command byte (R17). -/
  opc : BitVec 8
  /-- The model's own: the host's transactions and the engine's turns still to come, the next one first (log 3). -/
  events : List Event
  /-- The model's own: the values `RegRead` has returned to the host, oldest first (log 6). -/
  returned : List Word
  /-- The model's own: how many values of `unspecified(W)` have been drawn (log 5). -/
  draws : Nat
  deriving DecidableEq, Repr

/-- Why the machine stops with a fault: there is no reason. No rule of the spec stops the block: no access faults
(R42, R44), and a command's error is a completion after which the block goes on (R70, R118). Log 15. -/
inductive Fault where
  deriving DecidableEq, Repr

/-- Why the model has no meaning for a step. -/
inductive Refusal where
  /-- Raised by `exec` for an instruction whose meaning is not written; safe. No arm raises it: every command has its
  meaning. -/
  | notModelled (mnemonic : String)
  deriving DecidableEq, Repr

/-- The state right after reset (R22, R131): every register 0. The three model fields start empty, DESIGN CHOICE
(logs 3, 5, 6). -/
def State.reset : State where
  A := Word.zero
  B := Word.zero
  M := Word.zero
  R := Word.zero
  status := { busy := false, done := false, err := false, ecode := 0#4 }
  opc := 0#8
  events := []
  returned := []
  draws := 0

end Sys2Proof.Machine
end

