-- ==== Sys2Proof/Machine/Flags.lean ====
section
/-! DEFINITION. Every computation on the status word: how it is read, and what acceptance, completion and acknowledgement
make of it (R13 to R16). -/

namespace Sys2Proof.Machine

/-- The error causes (R110). -/
inductive ErrorCause where
  /-- `NO_INVERSE`, raised by MODINV (R111). -/
  | noInverse
  /-- `ZERO_MODULUS`, raised by MODMUL and MODEXP (R112). -/
  | zeroModulus
  /-- `ILLEGAL_CMD`, raised by a byte that encodes no command (R113). -/
  | illegalCmd
  deriving DecidableEq, Repr

/-- The 4-bit code of an error cause (R110). -/
def ErrorCause.code (e : ErrorCause) : BitVec 4 :=
  match e with
  | .noInverse => 1#4
  | .zeroModulus => 2#4
  | .illegalCmd => 3#4

/-- The 8-bit status word: `ECODE` in bits 7:4, 0 in bit 3, then `ERR`, `DONE`, `BUSY` (R13, R33). -/
def Status.word (st : Status) : BitVec 8 :=
  st.ecode ++ 0#1 ++ BitVec.ofBool st.err ++ BitVec.ofBool st.done ++ BitVec.ofBool st.busy

/-- The status after reset (R22). -/
def Status.afterReset : Status := { busy := false, done := false, err := false, ecode := 0#4 }

/-- The status from acceptance to completion: `BUSY` alone (R66, R67). -/
def Status.accepted : Status := { busy := true, done := false, err := false, ecode := 0#4 }

/-- The status after a normal completion (R69). -/
def Status.completedOk : Status := { busy := false, done := true, err := false, ecode := 0#4 }

/-- The status after an error completion (R70). -/
def Status.completedErr (e : ErrorCause) : Status := { busy := false, done := true, err := true, ecode := e.code }

/-- A host write of `v` to `STATUS` while idle: a 1 in bit 1 clears `DONE`, and every other bit of `v` is ignored (R39). -/
def Status.acknowledge (v : Word) (st : Status) : Status :=
  if v.getLsbD 1 then { st with done := false } else st

end Sys2Proof.Machine
end

