-- ==== Sys2Proof/Machine/Ops.lean ====
section
/-! DEFINITION. The shared operations: bit fields, the arithmetic of R6 as loops that the kernel can run, drawing a free
value, and how a command's outcome becomes a state change (R69, R70). The internal algorithm of a command is not
architectural (R19; log 10): Laws/Arithmetic.lean proves of each loop that it computes what R6 and the command's rule
say. -/

namespace Sys2Proof.Machine

/-! ### Bit fields -/

/-- `v[7:0]`: the command byte in the data of a write to `CMD` (R38, R50). -/
def lowByte (v : Word) : BitVec 8 := v.extractLsb' 0 8

/-- `zext_W(b)`: a byte in the low 8 bits of a bus word, the other bits 0 (R13). -/
def zextByte (b : BitVec 8) : Word := Word.exact b.toNat (Word.byte_lt b.isLt)

/-! ### Arithmetic over the natural numbers (R6) -/

/-- `fuel` rounds of Euclid's loop of R90. -/
def euclidLoop : Nat → Nat → Nat → Nat
  | 0, a, _ => a
  | fuel + 1, a, b => if b = 0 then a else euclidLoop fuel b (a % b)

/-- `euclid(a, b)` of R90. The second argument falls at every round, so `b + 1` rounds reach 0. -/
def euclid (a b : Nat) : Nat := euclidLoop (b + 1) a b

theorem euclidLoop_lt {n : Nat} (fuel a b : Nat) (ha : a < n) (hb : b < n) : euclidLoop fuel a b < n := by
  induction fuel generalizing a b with
  | zero => exact ha
  | succ fuel ih =>
    unfold euclidLoop
    split
    · exact ha
    · exact ih _ _ hb (Nat.lt_trans (Nat.mod_lt a (by omega)) hb)

/-- Euclid's result is no wider than its arguments (R81). -/
theorem euclid_lt {a b n : Nat} (ha : a < n) (hb : b < n) : euclid a b < n :=
  euclidLoop_lt (b + 1) a b ha hb

/-- `fuel` rounds of right-to-left square and multiply: `r * b ^ e` modulo `m`. -/
def powLoop (m : Nat) : Nat → Nat → Nat → Nat → Nat
  | 0, r, _, _ => r
  | fuel + 1, r, b, e =>
    if e = 0 then r else powLoop m fuel (if e % 2 = 1 then r * b % m else r) (b * b % m) (e / 2)

/-- `(a ^ e) mod m` without materializing `a ^ e` (R85), for `m > 0`. -/
def powMod (a e m : Nat) : Nat := powLoop m e (1 % m) (a % m) e

theorem powLoop_lt {m : Nat} (hm : 0 < m) (fuel r b e : Nat) (hr : r < m) : powLoop m fuel r b e < m := by
  induction fuel generalizing r b e with
  | zero => exact hr
  | succ fuel ih =>
    unfold powLoop
    split
    · exact hr
    · refine ih _ _ _ ?_
      split
      · exact Nat.mod_lt _ hm
      · exact hr

/-- The power is reduced modulo `m` (R86 (1)). -/
theorem powMod_lt (a e : Nat) {m : Nat} (hm : 0 < m) : powMod a e m < m :=
  powLoop_lt hm _ _ _ _ (Nat.mod_lt 1 hm)

/-- `fuel` rounds of the extended Euclidean loop, with the coefficients of the value to invert; they may go negative. -/
def bezoutLoop : Nat → Nat → Nat → Int → Int → Int
  | 0, _, _, s0, _ => s0
  | fuel + 1, r0, r1, s0, s1 =>
    if r1 = 0 then s0 else bezoutLoop fuel r1 (r0 % r1) s1 (s0 - (r0 / r1 : Nat) * s1)

/-- The inverse of `a` modulo `m`, for `m > 0` and `a`, `m` coprime, normalized into `[0, m)` (R95). -/
def modInverse (a m : Nat) : Nat := (bezoutLoop (m + 1) a m 1 0 % (m : Int)).toNat

/-- The inverse lies in `[0, m)` (R96 (2)). -/
theorem modInverse_lt (a : Nat) {m : Nat} (hm : 0 < m) : modInverse a m < m := by
  unfold modInverse
  have h0 := Int.emod_nonneg (bezoutLoop (m + 1) a m 1 0) (by omega : (m : Int) ≠ 0)
  have h1 := Int.emod_lt_of_pos (bezoutLoop (m + 1) a m 1 0) (by omega : (0 : Int) < m)
  omega

/-- At most `fuel` steps up from `s`, as long as the square of the next number does not exceed `n`. -/
def isqrtLoop (n : Nat) : Nat → Nat → Nat
  | 0, s => s
  | fuel + 1, s => if (s + 1) * (s + 1) ≤ n then isqrtLoop n fuel (s + 1) else s

/-- `isqrt(n)`: the greatest `s` with `s * s <= n` (R6), exact (90_conflicts.md C5). -/
def isqrt (n : Nat) : Nat := isqrtLoop n n 0

/-- Some `i` among the `count` numbers from `i` on divides `a`. -/
def dividedFrom (a : Nat) : Nat → Nat → Bool
  | _, 0 => false
  | i, count + 1 => a % i == 0 || dividedFrom a (i + 1) count

/-- The trial division of R100: some `i` with `2 <= i <= isqrt(a)` divides `a`. -/
def hasTrialDivisor (a : Nat) : Bool := dividedFrom a 2 (isqrt a - 1)

/-! ### Free values -/

/-- Draws one value of `unspecified(W)`, possibly a different one at every draw (R7; log 5). -/
def draw (s : State) : Word × State := (Config.unspecifiedWord s.draws, { s with draws := s.draws + 1 })

/-! ### Completion: how an outcome becomes a state change -/

/-- The outcome of a command: `ok(v)` or `fail(code)` (40_command_execution.md section 1). -/
inductive CmdOutcome where
  | ok (v : Word)
  | fail (e : ErrorCause)
  deriving DecidableEq, Repr

/-- Normal completion (R69). -/
def normalCompletion (v : Word) (s : State) : State := { s with R := v, status := Status.completedOk }

/-- Error completion, the block's one exception (R70, R114, R118): the cause goes to `STATUS`, `R` to 0, everything else
is kept and control goes nowhere. -/
def errorCompletion (e : ErrorCause) (s : State) : State :=
  { s with R := Word.zero, status := Status.completedErr e }

/-- The host's acknowledgement, beside it: there is no return instruction, and acknowledging clears `DONE` and keeps the
error record (R39, R119). -/
def acknowledge (v : Word) (s : State) : State := { s with status := s.status.acknowledge v }

/-- The completion of a command with a given outcome (R68). -/
def complete (o : CmdOutcome) (s : State) : State :=
  match o with
  | .ok v => normalCompletion v s
  | .fail e => errorCompletion e s

end Sys2Proof.Machine
end

