-- ==== Sys2Proof/Machine/Operands.lean ====
section
/-! DEFINITION. The register space: what each 3-bit index names (R31), the value a read of it gives (R33 to R35), and the
one place where a data register is written by the host (R36). Commands take their operands from the fixed registers `A`,
`B`, `M` at full width (R52), which are fields of State. -/

namespace Sys2Proof.Machine

/-- What a port index names (R31). -/
inductive PortReg where
  | A
  | B
  | M
  | R
  | CMD
  | STATUS
  /-- Index 6 or 7: no state. -/
  | reserved
  deriving DecidableEq, Repr

/-- The register map (R31): every value of the 3-bit index is legal (R42). -/
def portReg (idx : BitVec 3) : PortReg :=
  match idx.toNat with
  | 0 => .A
  | 1 => .B
  | 2 => .M
  | 3 => .R
  | 4 => .CMD
  | 5 => .STATUS
  | _ => .reserved

/-- The value a read gives in this state. While busy, `R` reads as `unspecified(W)`: the next free value (R34; log 5). -/
def readValue (idx : BitVec 3) (s : State) : Word :=
  match portReg idx with
  | .A => s.A
  | .B => s.B
  | .M => s.M
  | .R => if s.status.busy then (draw s).1 else s.R
  | .CMD => Word.zero
  | .STATUS => zextByte s.status.word
  | .reserved => Word.zero

/-- The state after a read: unchanged (R33), but that a read of `R` while busy uses up one free value (log 5). -/
def afterRead (idx : BitVec 3) (s : State) : State :=
  match portReg idx with
  | .A | .B | .M | .CMD | .STATUS | .reserved => s
  | .R => if s.status.busy then (draw s).2 else s

end Sys2Proof.Machine
end

