-- ==== Sys2Proof/Machine/Gcd.lean ====
section
/-! DEFINITION. GCD (43_gcd.md). -/

namespace Sys2Proof.Machine

/-- `gcd_outcome` (R90): never fails; `gcd(0, 0) = 0` is a result (90_conflicts.md C2). -/
def gcdOutcome (a b : Word) : CmdOutcome :=
  .ok (Word.exact (euclid a.toNat b.toNat) (euclid_lt a.isLt b.isLt))

/-- The completion of GCD, which ignores `M` (R68, R90). -/
def execGcd (s : State) : Host.Outcome State Fault Refusal :=
  .next (complete (gcdOutcome s.A s.B) s)

end Sys2Proof.Machine
end

