-- ==== Sys2Proof/Machine/IsPrime.lean ====
section
/-! DEFINITION. ISPRIME (45_isprime.md). -/

namespace Sys2Proof.Machine

/-- `isprime_outcome` (R100): trial division by every integer from 2 to the exact integer square root, inclusive; true is
the integer 1 and false the integer 0. -/
def isprimeOutcome (a : Word) : CmdOutcome :=
  if a.toNat < 2 then .ok Word.zero
  else if hasTrialDivisor a.toNat then .ok Word.zero
  else .ok Word.one

/-- The completion of ISPRIME, which ignores `B` and `M` (R68, R100). -/
def execIsprime (s : State) : Host.Outcome State Fault Refusal :=
  .next (complete (isprimeOutcome s.A) s)

end Sys2Proof.Machine
end

