-- ==== Sys2Proof/Machine/ModExp.lean ====
section
/-! DEFINITION. MODEXP (42_modexp.md). -/

namespace Sys2Proof.Machine

/-- `modexp_outcome` (R85): `(a ^ b) mod m`, with `a ^ 0 = 1` also for `a = 0`. -/
def modexpOutcome (a b m : Word) : CmdOutcome :=
  if h : m.toNat = 0 then .fail .zeroModulus
  else
    .ok (Word.exact (powMod a.toNat b.toNat m.toNat)
      (Nat.lt_trans (powMod_lt _ _ (Nat.pos_of_ne_zero h)) m.isLt))

/-- The completion of MODEXP (R68, R85). -/
def execModexp (s : State) : Host.Outcome State Fault Refusal :=
  .next (complete (modexpOutcome s.A s.B s.M) s)

end Sys2Proof.Machine
end

