-- ==== Sys2Proof/Machine/ModInv.lean ====
section
/-! DEFINITION. MODINV (44_modinv.md). -/

namespace Sys2Proof.Machine

/-- `modinv_outcome` (R95): `M = 0` fails with `NO_INVERSE` for every `A`, and `M = 1` gives 0 (90_conflicts.md C3). -/
def modinvOutcome (a m : Word) : CmdOutcome :=
  if h : m.toNat = 0 then .fail .noInverse
  else if euclid a.toNat m.toNat ≠ 1 then .fail .noInverse
  else
    .ok (Word.exact (modInverse a.toNat m.toNat)
      (Nat.lt_trans (modInverse_lt _ (Nat.pos_of_ne_zero h)) m.isLt))

/-- The completion of MODINV, which ignores `B` (R68, R95). -/
def execModinv (s : State) : Host.Outcome State Fault Refusal :=
  .next (complete (modinvOutcome s.A s.M) s)

end Sys2Proof.Machine
end

