-- ==== Sys2Proof/Machine/ModMul.lean ====
section
/-! DEFINITION. MODMUL (41_modmul.md). -/

namespace Sys2Proof.Machine

/-- `modmul_outcome` (R80): the product is exact, never truncated, and the remainder fits in a word (R81). -/
def modmulOutcome (a b m : Word) : CmdOutcome :=
  if h : m.toNat = 0 then .fail .zeroModulus
  else .ok (Word.exact (a.toNat * b.toNat % m.toNat) (Word.mod_lt _ h))

/-- The completion of MODMUL (R68, R80). -/
def execModmul (s : State) : Host.Outcome State Fault Refusal :=
  .next (complete (modmulOutcome s.A s.B s.M) s)

end Sys2Proof.Machine
end

