-- ==== Sys2Proof/Machine/Dispatch.lean ====
section
/-! DEFINITION. The one dispatch: what executing a command, the engine's `Complete` step, does (R68). -/

namespace Sys2Proof.Machine

/-- Executes a command: its completion. The engine runs it only while `BUSY = 1` (R68; log 4). -/
def exec (i : Instr) (s : State) : Host.Outcome State Fault Refusal :=
  match i with
  | .modmul => Sys2Proof.Machine.execModmul s
  | .modexp => Sys2Proof.Machine.execModexp s
  | .gcd => Sys2Proof.Machine.execGcd s
  | .modinv => Sys2Proof.Machine.execModinv s
  | .isprime => Sys2Proof.Machine.execIsprime s

end Sys2Proof.Machine
end

