-- ==== Sys2Proof/Machine/Engine.lean ====
section
/-! DEFINITION. The engine: its one step, `Complete` (R68), and its turn. -/

namespace Sys2Proof.Machine

/-- `Complete` (R68): the latched command byte is decoded and its command executed; a byte that encodes no command ends
with `ILLEGAL_CMD` whatever the operands hold (R75). -/
def completeStep (s : State) : Host.Outcome State Fault Refusal :=
  match decode s.opc with
  | .command i => exec i s
  | .illegal _ => .next (errorCompletion .illegalCmd s)

/-- A turn of the engine: it has a step exactly while `BUSY = 1` (R8, R68). DESIGN CHOICE: a turn while idle changes
nothing (log 3). -/
def engineTurn (s : State) : Host.Outcome State Fault Refusal :=
  if s.status.busy then completeStep s else .next s

end Sys2Proof.Machine
end

