-- ==== Sys2Proof/Machine/Port.lean ====
section
/-! DEFINITION. The host's transactions on the register port: reads, writes, acceptance and reset (20_memory.md,
40_command_execution.md R66, 70_reset_and_hazards.md R130). -/

namespace Sys2Proof.Machine

/-- `RegRead(idx)`: the value and the state after it (R33 to R35). -/
def regRead (idx : BitVec 3) (s : State) : Word × State := (readValue idx s, afterRead idx s)

/-- Acceptance of a command (R66), for a write of `v` to `CMD` while idle: every byte is accepted, legal or not, and `R`
becomes unspecified, a free value (log 5). -/
def accept (v : Word) (s : State) : State :=
  { (draw s).2 with opc := lowByte v, status := Status.accepted, R := (draw s).1 }

/-- `RegWrite(idx, v)` while `BUSY = 0` (R36, R38 to R40). -/
def regWriteIdle (idx : BitVec 3) (v : Word) (s : State) : State :=
  match portReg idx with
  | .A => { s with A := v }
  | .B => { s with B := v }
  | .M => { s with M := v }
  | .R => s
  | .CMD => accept v s
  | .STATUS => acknowledge v s
  | .reserved => s

/-- `RegWrite(idx, v)`: ignored while busy (R37). -/
def regWrite (idx : BitVec 3) (v : Word) (s : State) : State :=
  if s.status.busy then s else regWriteIdle idx v s

/-- `Reset`: every register takes its reset value, whatever the block was doing (R22, R130, R132). The host's own side,
and the counter of free values, are no part of the block and stay (logs 3, 5, 6). -/
def resetBlock (s : State) : State :=
  { s with
    A := Word.zero
    B := Word.zero
    M := Word.zero
    R := Word.zero
    status := Status.afterReset
    opc := 0#8 }

/-- A read delivers its value to the host (log 6). -/
def deliver (r : Word × State) : State := { r.2 with returned := r.2.returned ++ [r.1] }

/-- One host transaction (R7, R8). Every transaction is always possible (40_command_execution.md section 3). -/
def transact (t : Transaction) (s : State) : State :=
  match t with
  | .regRead idx => deliver (regRead idx s)
  | .regWrite idx v => regWrite idx v s
  | .reset => resetBlock s

/-- The completion event is pending exactly while `DONE = 1` (R116). -/
def completionPending (s : State) : Bool := s.status.done

end Sys2Proof.Machine
end

