-- ==== Sys2Proof/Machine/Step.lean ====
section
/-! DEFINITION. One step of the whole: the next event, taken by the host or by the engine (R8; 40_command_execution.md
section 3), and where an instruction of the opcode table is put so that the next step runs it. -/

namespace Sys2Proof.Machine

/-- One step. With no event left it is the engine's turn, so that a command in flight completes (R73, R140); an idle
block then stays as it is. DESIGN CHOICE, safe (log 3). -/
def step (s : State) : Host.Outcome State Fault Refusal :=
  match s.events with
  | [] => engineTurn s
  | .complete :: rest => engineTurn { s with events := rest }
  | .host t :: rest => .next (transact t { s with events := rest })

/-- `s` with the command byte `w` in flight and the engine's turn next: what an accepted write to `CMD` leaves (R66), so
that the next step is the `Complete` of that command. How a command comes to be in flight from reset: log 7. -/
def State.withFetchWord (s : State) (nbits w : Nat) : State :=
  { s with
    opc := BitVec.ofNat 8 (w % 2 ^ nbits)
    status := Status.accepted
    events := .complete :: s.events }

end Sys2Proof.Machine
end

