-- ==== Sys2Proof/Machine/Pins.lean ====
section
/-! DEFINITION. The pins (R32): what one rising edge of `clk` does, with the priority of R48, and the same with the latency
`LAT` counted (R67). The transaction level of Step.lean is the normative one; this level says how transactions are
carried, and Certificates/Slice0/Obligations.lean states that the two agree. -/

namespace Sys2Proof.Machine

/-- The input pins at one rising edge of `clk` (R32). -/
structure PinsIn where
  rst : Bool
  sel : Bool
  we : Bool
  addr : BitVec 3
  wdata : Word
  deriving DecidableEq, Repr

/-- The output pins (R32). -/
structure PinsOut where
  rdata : Word
  busy : Bool
  done : Bool
  err : Bool
  deriving DecidableEq, Repr

/-- The host reads in this cycle. -/
def PinsIn.reads (p : PinsIn) : Bool := p.sel && !p.we

/-- The host writes in this cycle. -/
def PinsIn.writes (p : PinsIn) : Bool := p.sel && p.we

/-- The output pins in a cycle: a function of the state before the edge and of the inputs; `busy`, `done` and `err` mirror
`STATUS` (R21), and `rdata` is 0 but in a cycle that reads (R32). -/
def pinsOut (p : PinsIn) (s : State) : PinsOut where
  rdata := if p.reads then readValue p.addr s else Word.zero
  busy := s.status.busy
  done := s.status.done
  err := s.status.err

/-- The state in which the value of `rdata` in this cycle has been delivered to the host, if the host reads. -/
def sampleRead (p : PinsIn) (s : State) : State := if p.reads then deliver (regRead p.addr s) else s

/-- One rising edge (R48). `completes` says whether the engine completes a command at this edge, which it can do only if
the state before the edge is busy. Reset has priority over a write and over a completion; a write and a completion are
both judged on the state before the edge. -/
def edge (p : PinsIn) (completes : Bool) (s : State) : Host.Outcome State Fault Refusal :=
  if p.rst then .next (resetBlock (sampleRead p s))
  else if s.status.busy then
    if completes then completeStep (sampleRead p s) else .next (sampleRead p s)
  else if p.writes then .next (regWriteIdle p.addr p.wdata s)
  else .next (sampleRead p s)

/-- The transactions that one edge stands for, in the order of R48: the host's access, then `Complete`, or `Reset` alone
(the value read in a reset cycle is that of the state before the edge). -/
def edgeEvents (p : PinsIn) (completes : Bool) : List Event :=
  if p.rst then
    if p.reads then [.host (.regRead p.addr), .host .reset] else [.host .reset]
  else
    (if p.reads then [.host (.regRead p.addr)]
     else if p.writes then [.host (.regWrite p.addr p.wdata)]
     else []) ++ (if completes then [.complete] else [])

/-- The block with its clock: `age` is the number of edges since the acceptance of the command in flight (log 12). -/
structure Clocked where
  st : State
  age : Nat
  deriving DecidableEq, Repr

/-- The engine completes at the `LAT`-th edge after acceptance (R4, R67). -/
def Clocked.completesNow (c : Clocked) : Bool :=
  c.st.status.busy && decide (Config.LAT c.st.opc c.st.A c.st.B c.st.M ≤ c.age + 1)

/-- One rising edge of the clocked block. -/
def Clocked.tick (p : PinsIn) (c : Clocked) : Host.Outcome Clocked Fault Refusal :=
  match edge p c.completesNow c.st with
  | .next t => .next { st := t, age := if c.st.status.busy && t.status.busy then c.age + 1 else 0 }
  | .fault r => .fault r
  | .refused r => .refused r

/-- A rising edge for each element of a list of inputs. -/
def Clocked.ticks : List PinsIn → Clocked → Host.Outcome Clocked Fault Refusal
  | [], c => .next c
  | p :: ps, c =>
    match c.tick p with
    | .next c' => Clocked.ticks ps c'
    | .fault r => .fault r
    | .refused r => .refused r

end Sys2Proof.Machine
end

