-- ==== Sys2Proof/Machine/HostLines.lean ====
section
/-! DEFINITION. The host's line notation (R57) and its macros (R58). A line is one transaction; a macro is a sequence of
events, with the number of polls of `WAIT` that find the block busy as an argument (log 11). -/

namespace Sys2Proof.Machine

/-- A register name of the notation (R57). -/
inductive RegName where
  | A
  | B
  | M
  | R
  | CMD
  | STATUS
  deriving DecidableEq, Repr

/-- The port index of a register name (R57). -/
def RegName.idx (r : RegName) : BitVec 3 :=
  match r with
  | .A => 0#3
  | .B => 1#3
  | .M => 2#3
  | .R => 3#3
  | .CMD => 4#3
  | .STATUS => 5#3

/-- One line of the notation (R57). -/
inductive Line where
  /-- `WR reg, v` -/
  | wr (r : RegName) (v : Word)
  /-- `RD reg` -/
  | rd (r : RegName)
  /-- `MODMUL`, `MODEXP`, `GCD`, `MODINV` or `ISPRIME` -/
  | command (i : Instr)
  /-- `CMD v` -/
  | cmd (v : Word)
  /-- `ACK` -/
  | ack
  /-- `RESET` -/
  | reset
  deriving DecidableEq, Repr

/-- The transaction of a line (R57). -/
def Line.transaction (l : Line) : Transaction :=
  match l with
  | .wr r v => .regWrite r.idx v
  | .rd r => .regRead r.idx
  | .command i => .regWrite 4#3 (zextByte (encode i))
  | .cmd v => .regWrite 4#3 v
  | .ack => .regWrite 5#3 (zextByte 0x02#8)
  | .reset => .reset

/-- The pins that carry a transaction, its encoding (R57); data that the notation leaves free is 0 here, and no rule reads
it. -/
def Transaction.pins (t : Transaction) : PinsIn :=
  match t with
  | .regRead idx => { rst := false, sel := true, we := false, addr := idx, wdata := Word.zero }
  | .regWrite idx v => { rst := false, sel := true, we := true, addr := idx, wdata := v }
  | .reset => { rst := true, sel := false, we := false, addr := 0#3, wdata := Word.zero }

/-- The event of a line. -/
def Line.event (l : Line) : Event := .host l.transaction

/-- `WAIT` (R58): polls of `STATUS` until one finds `BUSY = 0`. `busyPolls` of them find the block busy, then the engine
completes, and the next one ends the loop. DESIGN CHOICE (log 11). -/
def waitEvents (busyPolls : Nat) : List Event :=
  List.replicate busyPolls (Line.event (.rd .STATUS)) ++ [.complete, Line.event (.rd .STATUS)]

/-- What every macro ends with: the command, `WAIT`, `RD STATUS`, `RD R` (R58). -/
def commandEvents (i : Instr) (busyPolls : Nat) : List Event :=
  Line.event (.command i) :: waitEvents busyPolls ++ [Line.event (.rd .STATUS), Line.event (.rd .R)]

/-- The macro `modmul a, b, m` (R58). -/
def macroModmul (a b m : Word) (busyPolls : Nat) : List Event :=
  [Line.event (.wr .A a), Line.event (.wr .B b), Line.event (.wr .M m)] ++ commandEvents .modmul busyPolls

/-- The macro `modexp a, b, m` (R58). -/
def macroModexp (a b m : Word) (busyPolls : Nat) : List Event :=
  [Line.event (.wr .A a), Line.event (.wr .B b), Line.event (.wr .M m)] ++ commandEvents .modexp busyPolls

/-- The macro `gcd a, b` (R58). -/
def macroGcd (a b : Word) (busyPolls : Nat) : List Event :=
  [Line.event (.wr .A a), Line.event (.wr .B b)] ++ commandEvents .gcd busyPolls

/-- The macro `modinv a, m` (R58). -/
def macroModinv (a m : Word) (busyPolls : Nat) : List Event :=
  [Line.event (.wr .A a), Line.event (.wr .M m)] ++ commandEvents .modinv busyPolls

/-- The macro `isprime a` (R58). -/
def macroIsprime (a : Word) (busyPolls : Nat) : List Event :=
  Line.event (.wr .A a) :: commandEvents .isprime busyPolls

end Sys2Proof.Machine
end

