-- ==== Sys2Proof/Machine/Outcome.lean ====
section
/-! DEFINITION. The table of R68 as one function of the command byte and the operands, in whose terms claims say that a
command is a pure function (R9) fixed at acceptance (R71). Dispatch.lean runs the same five outcome functions. -/

namespace Sys2Proof.Machine

/-- The outcome of the command byte `c` on the operands `a`, `b`, `m` (R68). -/
def outcomeOf (c : BitVec 8) (a b m : Word) : CmdOutcome :=
  match decode c with
  | .command .modmul => modmulOutcome a b m
  | .command .modexp => modexpOutcome a b m
  | .command .gcd => gcdOutcome a b
  | .command .modinv => modinvOutcome a m
  | .command .isprime => isprimeOutcome a
  | .illegal _ => .fail .illegalCmd

end Sys2Proof.Machine
end

