-- ==== Sys2Proof/Safety.lean ====
section
/-! DEFINITION. What counts as a good state and as the end of a run, in the terms that claims use: the invariants of
10_state.md section 7, and the final states of 70_reset_and_hazards.md section 5. -/

namespace Sys2Proof.Machine

/-- The invariants of 10_state.md section 7 (from R14, R15, R16): while busy, `DONE`, `ERR` and `ECODE` are 0; `ERR` is 1
exactly when `ECODE` is not 0; `ECODE` is at most 3; and while idle with `ERR = 1`, `R` is 0. -/
abbrev BlockInv (s : State) : Prop :=
  (s.status.busy = true → s.status.done = false ∧ s.status.err = false ∧ s.status.ecode = 0#4) ∧
  (s.status.err = true ↔ s.status.ecode ≠ 0#4) ∧
  s.status.ecode.toNat ≤ 3 ∧
  (s.status.busy = false → s.status.err = true → s.R.toNat = 0)

/-- The invariant of the clocked block: that of its state; a command in flight has not yet lasted its `LAT` (R67); and an
idle block counts no edges (log 12). -/
abbrev ClockedInv (c : Clocked) : Prop :=
  BlockInv c.st ∧
  (c.st.status.busy = true → c.age < Config.LAT c.st.opc c.st.A c.st.B c.st.M) ∧
  (c.st.status.busy = false → c.age = 0)

/-- The state is final: idle, and no event is left (70_reset_and_hazards.md section 5). -/
abbrev Final (s : State) : Prop := s.status.busy = false ∧ s.events = []

/-- It is the engine's turn: no event is left, or the next one is the engine's. -/
def engineNext (s : State) : Bool :=
  match s.events with
  | [] => true
  | .complete :: _ => true
  | .host _ :: _ => false

/-- `k` steps of the machine, stopping at the first fault or refusal. -/
abbrev runs (k : Nat) (s : State) : Host.Outcome State Fault Refusal := Sys2Proof.core.run k s

/-- The next event is the host's transaction `t`, and `rest` follows it. -/
abbrev HostNext (t : Transaction) (rest : List Event) (s : State) : Prop := s.events = .host t :: rest

end Sys2Proof.Machine
end

