-- ==== Sys2Proof/Certificates/Slice0/Obligations.lean ====
section
/-! DEFINITION. The statements for the provers, in the order of spec/: encoding, the port, reset and the pins, the five
commands, the step, and the rules about the whole block. A command's effect is written as an update of the state before
it, so that each result also says what stays as it was. -/

open Sys2Proof Sys2Proof.Machine

/-! ### Encoding (30_encoding.md) -/

/-- The opcode map, each command byte written out bit by bit. -/
def Obligations.CommandBytesDecodeToTheirCommands : Prop :=
  decode 0b00000001#8 = .command .modmul ∧ decode 0b00000010#8 = .command .modexp ∧
  decode 0b00000011#8 = .command .gcd ∧ decode 0b00000100#8 = .command .modinv ∧
  decode 0b00000101#8 = .command .isprime ∧
  decodeTableWord 8 0x01 = some .modmul ∧ decodeTableWord 8 0x02 = some .modexp ∧
  decodeTableWord 8 0x03 = some .gcd ∧ decodeTableWord 8 0x04 = some .modinv ∧
  decodeTableWord 8 0x05 = some .isprime

/-- Decoding and encoding agree in both directions: a command has exactly one byte. -/
def Obligations.DecodeAndEncodeAgree : Prop :=
  (∀ i : Instr, decode (encode i) = .command i) ∧ ∀ (c : BitVec 8) (i : Instr), decode c = .command i → c = encode i

/-- R54: every byte is one of the five commands or illegal; an illegal byte is still accepted, and the command then ends
with code 3 and the effects of an error completion alone. -/
def Obligations.IllegalBytesAreAcceptedAndEndWithCodeThree : Prop :=
  ∀ c : BitVec 8,
    ((∃ i, decode c = .command i) ↔ 1 ≤ c.toNat ∧ c.toNat ≤ 5) ∧
    ((∃ why, decode c = .illegal why) ↔ ¬(1 ≤ c.toNat ∧ c.toNat ≤ 5)) ∧
    (¬(1 ≤ c.toNat ∧ c.toNat ≤ 5) →
      (∀ (s : State) (v : Word) (rest : List Event), s.status.busy = false → v.toNat % 256 = c.toNat →
        ∃ t, step { s with events := .host (.regWrite 4#3 v) :: rest } = .next t ∧
          t.status.busy = true ∧ t.opc = c) ∧
      (∀ s : State, s.status.busy = true → engineNext s = true → s.opc = c →
        step s = .next { s with
          R := Word.zero
          status := { busy := false, done := true, err := true, ecode := 3#4 }
          events := s.events.tail }))

/-! ### The register port (20_memory.md) -/

/-- R33: what a read returns at the indices 0, 1, 2 and 5, and that no read changes any state of the block. (`returned` is
the host's record of what it read, and `draws` numbers the free values: log 5, log 6.) -/
def Obligations.ReadReturnsTheRegisterAndChangesNothing : Prop :=
  ∀ (s : State) (rest : List Event),
    step { s with events := .host (.regRead 0#3) :: rest } =
      .next { s with events := rest, returned := s.returned ++ [s.A] } ∧
    step { s with events := .host (.regRead 1#3) :: rest } =
      .next { s with events := rest, returned := s.returned ++ [s.B] } ∧
    step { s with events := .host (.regRead 2#3) :: rest } =
      .next { s with events := rest, returned := s.returned ++ [s.M] } ∧
    (∃ v : Word,
      v.toNat = s.status.busy.toNat + 2 * s.status.done.toNat + 4 * s.status.err.toNat + 16 * s.status.ecode.toNat ∧
      step { s with events := .host (.regRead 5#3) :: rest } =
        .next { s with events := rest, returned := s.returned ++ [v] }) ∧
    ∀ idx : BitVec 3, ∃ (v : Word) (n : Nat),
      step { s with events := .host (.regRead idx) :: rest } =
        .next { s with events := rest, returned := s.returned ++ [v], draws := n } ∧
      (idx ≠ 3#3 → n = s.draws)

/-- R34: a read of `R` gives `R` while idle and a free value, a fresh one at every read, while busy. -/
def Obligations.ReadOfResultIsUnspecifiedWhileBusy : Prop :=
  ∀ (s : State) (rest : List Event),
    (s.status.busy = false →
      step { s with events := .host (.regRead 3#3) :: rest } =
        .next { s with events := rest, returned := s.returned ++ [s.R] }) ∧
    (s.status.busy = true →
      step { s with events := .host (.regRead 3#3) :: rest } =
        .next { s with
          events := rest
          returned := s.returned ++ [Config.unspecifiedWord s.draws]
          draws := s.draws + 1 })

/-- R35: the trigger and the reserved indices read as 0, idle or busy. -/
def Obligations.ReadOfTriggerAndReservedIndicesIsZero : Prop :=
  ∀ (s : State) (rest : List Event) (idx : BitVec 3), idx = 4#3 ∨ idx = 6#3 ∨ idx = 7#3 →
    ∃ v : Word, v.toNat = 0 ∧
      step { s with events := .host (.regRead idx) :: rest } =
        .next { s with events := rest, returned := s.returned ++ [v] }

/-- R36: a write to an operand register while idle. -/
def Obligations.OperandWriteWhileIdleStoresTheWord : Prop :=
  ∀ (s : State) (v : Word) (rest : List Event), s.status.busy = false →
    step { s with events := .host (.regWrite 0#3 v) :: rest } = .next { s with events := rest, A := v } ∧
    step { s with events := .host (.regWrite 1#3 v) :: rest } = .next { s with events := rest, B := v } ∧
    step { s with events := .host (.regWrite 2#3 v) :: rest } = .next { s with events := rest, M := v }

/-- R37: every write while busy is ignored. -/
def Obligations.EveryWriteWhileBusyIsIgnored : Prop :=
  ∀ (s : State) (idx : BitVec 3) (v : Word) (rest : List Event), s.status.busy = true →
    step { s with events := .host (.regWrite idx v) :: rest } = .next { s with events := rest }

/-- R38 and R66: acceptance, for every word written, legal command or not; only bits 7:0 count; `R` becomes a free value.
The same write while busy accepts nothing. -/
def Obligations.CommandWriteWhileIdleIsAcceptance : Prop :=
  ∀ (s : State) (v : Word) (rest : List Event),
    (s.status.busy = false →
      step { s with events := .host (.regWrite 4#3 v) :: rest } =
        .next { s with
          events := rest
          opc := BitVec.ofNat 8 (v.toNat % 256)
          status := { busy := true, done := false, err := false, ecode := 0#4 }
          R := Config.unspecifiedWord s.draws
          draws := s.draws + 1 }) ∧
    (s.status.busy = true →
      step { s with events := .host (.regWrite 4#3 v) :: rest } = .next { s with events := rest })

/-- R39: the host's acknowledgement. -/
def Obligations.StatusWriteClearsDoneAndNothingElse : Prop :=
  ∀ (s : State) (v : Word) (rest : List Event), s.status.busy = false →
    (v.toNat / 2 % 2 = 1 →
      step { s with events := .host (.regWrite 5#3 v) :: rest } =
        .next { s with events := rest, status := { s.status with done := false } }) ∧
    (v.toNat / 2 % 2 = 0 →
      step { s with events := .host (.regWrite 5#3 v) :: rest } = .next { s with events := rest })

/-- R40: writes to `R` and to the reserved indices are ignored, idle or busy. -/
def Obligations.WriteToResultOrReservedIndexIsIgnored : Prop :=
  ∀ (s : State) (idx : BitVec 3) (v : Word) (rest : List Event), idx = 3#3 ∨ idx = 6#3 ∨ idx = 7#3 →
    step { s with events := .host (.regWrite idx v) :: rest } = .next { s with events := rest }

/-- R21: the pins mirror the bits of the status word, whose layout (10_state.md section 3) is stated with it: bit 3 reads 0
and `ECODE` stands in bits 7:4. -/
def Obligations.StatusWordHoldsItsFieldsAndThePinsMirrorIt : Prop :=
  ∀ (s : State) (p : PinsIn),
    s.status.word.getLsbD 0 = s.status.busy ∧ s.status.word.getLsbD 1 = s.status.done ∧
    s.status.word.getLsbD 2 = s.status.err ∧ s.status.word.getLsbD 3 = false ∧
    s.status.word.extractLsb' 4 4 = s.status.ecode ∧
    (pinsOut p s).busy = s.status.word.getLsbD 0 ∧ (pinsOut p s).done = s.status.word.getLsbD 1 ∧
    (pinsOut p s).err = s.status.word.getLsbD 2

/-! ### Reset and the pins (70_reset_and_hazards.md, 20_memory.md sections 2 and 7) -/

/-- R22: the reset state, and that a `Reset` puts every register there from any state. -/
def Obligations.ResetPutsEveryRegisterToZero : Prop :=
  (State.reset.A.toNat = 0 ∧ State.reset.B.toNat = 0 ∧ State.reset.M.toNat = 0 ∧ State.reset.R.toNat = 0 ∧
    State.reset.status.word = 0x00#8 ∧ State.reset.opc = 0#8) ∧
  ∀ (s : State) (p : PinsIn) (rest : List Event), ∃ t,
    step { s with events := .host .reset :: rest } = .next t ∧
    t.A.toNat = 0 ∧ t.B.toNat = 0 ∧ t.M.toNat = 0 ∧ t.R.toNat = 0 ∧ t.status.word = 0x00#8 ∧ t.opc = 0#8 ∧
    (pinsOut p t).busy = false ∧ (pinsOut p t).done = false ∧ (pinsOut p t).err = false ∧
    t.events = rest ∧ t.returned = s.returned ∧ t.draws = s.draws

/-- R130: at an edge with `rst = 1` the block takes the reset state, whatever it was doing and whatever access or
completion falls on the edge, and so again for as long as `rst` stays 1. -/
def Obligations.ResetPinHasPriorityOverAccessAndCompletion : Prop :=
  ∀ (p : PinsIn) (completes : Bool) (s : State), p.rst = true →
    ∃ t, edge p completes s = .next t ∧
      t.A = State.reset.A ∧ t.B = State.reset.B ∧ t.M = State.reset.M ∧ t.R = State.reset.R ∧
      t.status = State.reset.status ∧ t.opc = State.reset.opc

/-- R132: a reset while busy discards the command: however many turns the engine then gets, the state stays the reset
state. Nothing but a completion or a reset ends a busy phase. -/
def Obligations.ResetWhileBusyDiscardsTheCommand : Prop :=
  ∀ (s : State) (n : Nat), s.status.busy = true →
    (∃ t, step s = .next t ∧
      (t.status.busy = false → engineNext s = true ∨ ∃ rest, s.events = .host .reset :: rest)) ∧
    runs (n + 1) { s with events := .host .reset :: List.replicate n .complete } =
      .next { s with
        A := State.reset.A
        B := State.reset.B
        M := State.reset.M
        R := State.reset.R
        status := State.reset.status
        opc := State.reset.opc
        events := [] }

/-- R48: one clock edge, where reset wins and otherwise the host's access and the completion are both judged on the state
before the edge, is the transactions it carries, the host's access first and then `Complete`; and what a read delivers is
the value on `rdata` before the edge. -/
def Obligations.ClockEdgeIsHostAccessThenCompletion : Prop :=
  ∀ (p : PinsIn) (completes : Bool) (s : State),
    runs (edgeEvents p (completes && s.status.busy)).length
      { s with events := edgeEvents p (completes && s.status.busy) ++ s.events } = edge p completes s ∧
    ∃ t, edge p completes s = .next t ∧
      t.returned = (if p.reads then s.returned ++ [(pinsOut p s).rdata] else s.returned)

/-- The busy phase (40_command_execution.md section 2): from the acceptance of a command on, for fewer than `LAT` edges the
operands, `OPC` and `STATUS = 0x01` stay and `R` reads as a free value, whatever the host does short of a reset; at the
`LAT`-th edge the busy phase ends.
That `LAT` is a function of the byte and the operands, counted by `age`, is the model's reading (log 12). -/
def Obligations.BusyPhaseLastsLatencyCycles : Prop :=
  ∀ (c : Clocked) (p : PinsIn), c.st.status.busy = false → p.rst = false → p.writes = true → p.addr = 4#3 →
    ∃ c0, c.tick p = .next c0 ∧
      c0.st.A = c.st.A ∧ c0.st.B = c.st.B ∧ c0.st.M = c.st.M ∧ c0.st.opc.toNat = p.wdata.toNat % 256 ∧
      1 ≤ Config.LAT c0.st.opc c.st.A c.st.B c.st.M ∧
      ∀ ps : List PinsIn, (∀ q ∈ ps, q.rst = false) →
        (ps.length < Config.LAT c0.st.opc c.st.A c.st.B c.st.M →
          ∃ d, Clocked.ticks ps c0 = .next d ∧
            d.st.A = c.st.A ∧ d.st.B = c.st.B ∧ d.st.M = c.st.M ∧ d.st.opc = c0.st.opc ∧
            d.st.status.word = 0x01#8 ∧ readValue 3#3 d.st = Config.unspecifiedWord d.st.draws) ∧
        (ps.length = Config.LAT c0.st.opc c.st.A c.st.B c.st.M →
          ∃ d, Clocked.ticks ps c0 = .next d ∧ d.st.status.busy = false ∧ d.st.status.done = true)

/-- The invariant of the clocked block, of which the busy phase (40_command_execution.md section 2) is the consequence, holds
after reset. -/
def Obligations.ClockedInvariantHoldsAfterReset : Prop :=
  ClockedInv { st := State.reset, age := 0 }

/-- Every clock edge keeps the invariant of the clocked block, from every state that meets it and for every input: the
invariants of 10_state.md section 7 hold, a command in flight is younger than its `LAT`, and an idle block counts nothing.
And the frame of the busy phase: an edge without reset that leaves the block busy keeps the operands, `OPC` and `STATUS`
and makes the command one edge older. That edges are counted by `age` is the model's choice (log 12). -/
def Obligations.EveryClockEdgeKeepsTheClockedInvariant : Prop :=
  ∀ (c : Clocked) (p : PinsIn), ClockedInv c →
    ∃ d, c.tick p = .next d ∧ ClockedInv d ∧
      (c.st.status.busy = true → p.rst = false → d.st.status.busy = true →
        d.age = c.age + 1 ∧ d.st.A = c.st.A ∧ d.st.B = c.st.B ∧ d.st.M = c.st.M ∧ d.st.opc = c.st.opc ∧
        d.st.status = c.st.status)

/-- R57: each line of the host notation is its transaction, carried by the pins the table gives. -/
def Obligations.HostNotationLinesAreTheirTransactions : Prop :=
  (RegName.A.idx = 0#3 ∧ RegName.B.idx = 1#3 ∧ RegName.M.idx = 2#3 ∧ RegName.R.idx = 3#3 ∧
    RegName.CMD.idx = 4#3 ∧ RegName.STATUS.idx = 5#3) ∧
  (∀ (r : RegName) (v : Word),
    (Line.wr r v).transaction = .regWrite r.idx v ∧ (Line.rd r).transaction = .regRead r.idx) ∧
  (∀ v : Word, (Line.cmd v).transaction = .regWrite 4#3 v) ∧
  (∃ v : Word, v.toNat = 0x01 ∧ (Line.command .modmul).transaction = .regWrite 4#3 v) ∧
  (∃ v : Word, v.toNat = 0x02 ∧ (Line.command .modexp).transaction = .regWrite 4#3 v) ∧
  (∃ v : Word, v.toNat = 0x03 ∧ (Line.command .gcd).transaction = .regWrite 4#3 v) ∧
  (∃ v : Word, v.toNat = 0x04 ∧ (Line.command .modinv).transaction = .regWrite 4#3 v) ∧
  (∃ v : Word, v.toNat = 0x05 ∧ (Line.command .isprime).transaction = .regWrite 4#3 v) ∧
  (∃ v : Word, v.toNat = 0x02 ∧ Line.ack.transaction = .regWrite 5#3 v) ∧
  Line.reset.transaction = .reset ∧ (Transaction.pins .reset).rst = true ∧
  (∀ (idx : BitVec 3) (v : Word),
    ((Transaction.regWrite idx v).pins.rst = false ∧ (Transaction.regWrite idx v).pins.sel = true ∧
      (Transaction.regWrite idx v).pins.we = true ∧ (Transaction.regWrite idx v).pins.addr = idx ∧
      (Transaction.regWrite idx v).pins.wdata = v) ∧
    ((Transaction.regRead idx).pins.rst = false ∧ (Transaction.regRead idx).pins.sel = true ∧
      (Transaction.regRead idx).pins.we = false ∧ (Transaction.regRead idx).pins.addr = idx))

/-! ### The commands (41_modmul.md to 45_isprime.md) -/

/-- R80: MODMUL. -/
def Obligations.ModmulWritesTheExactProductModuloM : Prop :=
  decode 0x01#8 = .command .modmul ∧
  ∀ s : State,
    (s.M.toNat = 0 →
      exec .modmul s = .next { s with
        R := Word.zero
        status := { busy := false, done := true, err := true, ecode := 2#4 } }) ∧
    (s.M.toNat ≠ 0 →
      ∃ v : Word, v.toNat = s.A.toNat * s.B.toNat % s.M.toNat ∧
        exec .modmul s = .next { s with
          R := v
          status := { busy := false, done := true, err := false, ecode := 0#4 } })

/-- R85: MODEXP, the power over the natural numbers, `0 ^ 0 = 1` among the rest. -/
def Obligations.ModexpWritesThePowerModuloM : Prop :=
  decode 0x02#8 = .command .modexp ∧
  ∀ s : State,
    (s.M.toNat = 0 →
      exec .modexp s = .next { s with
        R := Word.zero
        status := { busy := false, done := true, err := true, ecode := 2#4 } }) ∧
    (s.M.toNat ≠ 0 →
      ∃ v : Word, v.toNat = s.A.toNat ^ s.B.toNat % s.M.toNat ∧
        exec .modexp s = .next { s with
          R := v
          status := { busy := false, done := true, err := false, ecode := 0#4 } })

/-- R90: GCD, which never fails. -/
def Obligations.GcdWritesTheGreatestCommonDivisor : Prop :=
  decode 0x03#8 = .command .gcd ∧
  ∀ s : State,
    ∃ v : Word, v.toNat = Nat.gcd s.A.toNat s.B.toNat ∧
      exec .gcd s = .next { s with
        R := v
        status := { busy := false, done := true, err := false, ecode := 0#4 } }

/-- The laws of GCD (43_gcd.md), which the spec derives from the command's rule: the result divides both operands and no
common divisor is larger, unless both are 0; it is never larger than the larger operand. -/
def Obligations.GcdDividesBothAndIsTheLargest : Prop :=
  ∀ s : State, ∃ t, exec .gcd s = .next t ∧
    (s.A.toNat ≠ 0 ∨ s.B.toNat ≠ 0 →
      t.R.toNat ∣ s.A.toNat ∧ t.R.toNat ∣ s.B.toNat ∧
      ∀ d : Nat, d ∣ s.A.toNat → d ∣ s.B.toNat → d ≤ t.R.toNat) ∧
    t.R.toNat ≤ max s.A.toNat s.B.toNat

/-- R95: MODINV, with `M = 0` and `M = 1` among the cases. -/
def Obligations.ModinvWritesTheUniqueInverseOrFails : Prop :=
  decode 0x04#8 = .command .modinv ∧
  ∀ s : State,
    (s.M.toNat = 0 ∨ Nat.gcd s.A.toNat s.M.toNat ≠ 1 →
      exec .modinv s = .next { s with
        R := Word.zero
        status := { busy := false, done := true, err := true, ecode := 1#4 } }) ∧
    (s.M.toNat ≠ 0 → Nat.gcd s.A.toNat s.M.toNat = 1 →
      ∃ d : Word, d.toNat < s.M.toNat ∧ s.A.toNat * d.toNat % s.M.toNat = 1 % s.M.toNat ∧
        (∀ d' : Nat, d' < s.M.toNat → s.A.toNat * d' % s.M.toNat = 1 % s.M.toNat → d' = d.toNat) ∧
        exec .modinv s = .next { s with
          R := d
          status := { busy := false, done := true, err := false, ecode := 0#4 } })

/-- What 44_modinv.md says a host can do: check an inverse with one MODMUL, `B` set to the result. -/
def Obligations.InverseIsVerifiedByOneModmul : Prop :=
  ∀ s : State, 1 < s.M.toNat → Nat.gcd s.A.toNat s.M.toNat = 1 →
    ∃ t u, exec .modinv s = .next t ∧ exec .modmul { t with B := t.R } = .next u ∧
      t.status.err = false ∧ u.status.err = false ∧ u.R.toNat = 1

/-- R100: ISPRIME, by the trial division of its rule and as the mathematical predicate; it never fails. -/
def Obligations.IsprimeDecidesPrimality : Prop :=
  decode 0x05#8 = .command .isprime ∧
  ∀ s : State,
    ∃ v : Word,
      exec .isprime s = .next { s with
        R := v
        status := { busy := false, done := true, err := false, ecode := 0#4 } } ∧
      (v.toNat = 0 ∨ v.toNat = 1) ∧
      (v.toNat = 0 ↔ s.A.toNat < 2 ∨ ∃ i : Nat, 2 ≤ i ∧ i ≤ Nat.sqrt s.A.toNat ∧ s.A.toNat % i = 0) ∧
      (v.toNat = 1 ↔ Nat.Prime s.A.toNat)

/-- The range of every result (41_modmul.md, the arithmetic law): nothing is ever truncated. -/
def Obligations.ResultsStayInTheirRanges : Prop :=
  ∀ s : State,
    (∃ t, exec .modmul s = .next t ∧ (s.M.toNat ≠ 0 → t.R.toNat < s.M.toNat)) ∧
    (∃ t, exec .modexp s = .next t ∧ (s.M.toNat ≠ 0 → t.R.toNat < s.M.toNat)) ∧
    (∃ t, exec .modinv s = .next t ∧ (s.M.toNat ≠ 0 → t.R.toNat < s.M.toNat)) ∧
    (∃ t, exec .gcd s = .next t ∧ t.R.toNat ≤ max s.A.toNat s.B.toNat) ∧
    (∃ t, exec .isprime s = .next t ∧ t.R.toNat ≤ 1)

/-- The round trip of 42_modexp.md, law (2): with `M = p * q` for distinct primes and `d` the block's own inverse of `e`
modulo `(p - 1) * (q - 1)`, MODEXP with `e` and then MODEXP with `d` gives back every `m` below the modulus. -/
def Obligations.EncryptThenDecryptReturnsThePlaintext : Prop :=
  ∀ (p q : Nat) (s1 s2 s3 : State), Nat.Prime p → Nat.Prime q → p ≠ q →
    s1.M.toNat = (p - 1) * (q - 1) → Nat.gcd s1.A.toNat ((p - 1) * (q - 1)) = 1 →
    s2.M.toNat = p * q → s2.A.toNat < p * q → s2.B = s1.A →
    s3.M = s2.M →
    ∃ t1 t2 t3, exec .modinv s1 = .next t1 ∧ exec .modexp s2 = .next t2 ∧
      exec .modexp { s3 with A := t2.R, B := t1.R } = .next t3 ∧
      t1.status.err = false ∧ t2.status.err = false ∧ t3.status.err = false ∧ t3.R = s2.A

/-- R9: the outcome of a command is a function of the opcode and of `A`, `B`, `M`, and of nothing else. -/
def Obligations.OutcomeIsAFunctionOfOpcodeAndOperands : Prop :=
  ∀ (s s' : State), s.status.busy = true → s'.status.busy = true → engineNext s = true → engineNext s' = true →
    s.opc = s'.opc → s.A = s'.A → s.B = s'.B → s.M = s'.M →
    ∃ t t', step s = .next t ∧ step s' = .next t' ∧ t.R = t'.R ∧ t.status = t'.status

/-- The operands a command ignores (10_state.md section 2): `M` for GCD, `B` for MODINV, `B` and `M` for ISPRIME. -/
def Obligations.IgnoredOperandsHaveNoEffect : Prop :=
  ∀ (s : State) (b m : Word),
    (∃ t t', exec .gcd s = .next t ∧ exec .gcd { s with M := m } = .next t' ∧ t.R = t'.R ∧ t.status = t'.status) ∧
    (∃ t t', exec .modinv s = .next t ∧ exec .modinv { s with B := b } = .next t' ∧
      t.R = t'.R ∧ t.status = t'.status) ∧
    (∃ t t', exec .isprime s = .next t ∧ exec .isprime { s with B := b, M := m } = .next t' ∧
      t.R = t'.R ∧ t.status = t'.status)

/-- The frame of every command: it runs in every state, and only `R` and `STATUS` change. -/
def Obligations.EveryCommandChangesOnlyResultAndStatus : Prop :=
  ∀ (i : Instr) (s : State), ∃ (v : Word) (st : Status),
    exec i s = .next { s with R := v, status := st } ∧ st.busy = false ∧ st.done = true

/-! ### Completion, errors and the step (40_command_execution.md, 60_exceptions.md) -/

/-- R69 and R70: what a completion writes, for a result and for each error code, the status word included, and that
everything else stays. -/
def Obligations.CompletionWritesResultAndStatus : Prop :=
  ∀ s : State,
    (∀ v : Word, ∃ t, complete (.ok v) s = t ∧ t = { s with R := v, status := t.status } ∧ t.status.word = 0x02#8) ∧
    (∀ e : ErrorCause, ∃ t, complete (.fail e) s = t ∧ t = { s with R := Word.zero, status := t.status } ∧
      1 ≤ e.code.toNat ∧ e.code.toNat ≤ 3 ∧ t.status.word.toNat = e.code.toNat * 16 + 0x06) ∧
    (complete (.fail .noInverse) s).status.word = 0x16#8 ∧
    (complete (.fail .zeroModulus) s).status.word = 0x26#8 ∧
    (complete (.fail .illegalCmd) s).status.word = 0x36#8

/-- R110: when a command ends with which code, exactly, and that no host access raises an error. -/
def Obligations.EachErrorCodeHasExactlyItsCause : Prop :=
  (∀ s : State, s.status.busy = true → engineNext s = true →
    ∃ t, step s = .next t ∧
      (t.status.ecode = 1#4 ↔ s.opc = 0x04#8 ∧ (s.M.toNat = 0 ∨ Nat.gcd s.A.toNat s.M.toNat ≠ 1)) ∧
      (t.status.ecode = 2#4 ↔ (s.opc = 0x01#8 ∨ s.opc = 0x02#8) ∧ s.M.toNat = 0) ∧
      (t.status.ecode = 3#4 ↔ ¬(1 ≤ s.opc.toNat ∧ s.opc.toNat ≤ 5)) ∧
      t.status.ecode.toNat ≤ 3 ∧ (t.status.err = true ↔ t.status.ecode ≠ 0#4)) ∧
  (∀ (s : State) (tr : Transaction) (rest : List Event),
    ∃ t, step { s with events := .host tr :: rest } = .next t ∧
      (s.status.err = false → t.status.err = false) ∧ (s.status.ecode = 0#4 → t.status.ecode = 0#4))

/-- A step on the engine's turn, while busy, with the byte of a command latched, is the execution of that command; what the
step adds around it is that the turn is used up. -/
def Obligations.StepRunsTheLatchedCommand : Prop :=
  ∀ (s : State) (i : Instr), s.status.busy = true → engineNext s = true → decode s.opc = .command i →
    step s = exec i { s with events := s.events.tail }

/-- R68: the one step of the engine applies the outcome of the latched byte on the operand registers, the table of the
rule line by line, and the completion of the outcome. -/
def Obligations.CompleteAppliesTheOutcomeOfTheLatchedByte : Prop :=
  ∀ s : State, s.status.busy = true → engineNext s = true →
    (decode s.opc = .command .modmul →
      step s = .next (complete (modmulOutcome s.A s.B s.M) { s with events := s.events.tail })) ∧
    (decode s.opc = .command .modexp →
      step s = .next (complete (modexpOutcome s.A s.B s.M) { s with events := s.events.tail })) ∧
    (decode s.opc = .command .gcd →
      step s = .next (complete (gcdOutcome s.A s.B) { s with events := s.events.tail })) ∧
    (decode s.opc = .command .modinv →
      step s = .next (complete (modinvOutcome s.A s.M) { s with events := s.events.tail })) ∧
    (decode s.opc = .command .isprime →
      step s = .next (complete (isprimeOutcome s.A) { s with events := s.events.tail })) ∧
    (∀ why, decode s.opc = .illegal why →
      step s = .next (complete (.fail .illegalCmd) { s with events := s.events.tail })) ∧
    step s = .next (complete (outcomeOf s.opc s.A s.B s.M) { s with events := s.events.tail })

/-- The engine has no step while idle (00_scope.md section 5): its turn changes nothing. That an unused turn is itself a
step of the model is the model's choice (log 3). -/
def Obligations.EngineHasNoStepWhileIdle : Prop :=
  ∀ s : State, s.status.busy = false → engineNext s = true → step s = .next { s with events := s.events.tail }

/-- Nothing stops the block: no access is refused, faults or stalls (70_reset_and_hazards.md section 5), and no command
does. -/
def Obligations.EveryStepAnswersANextState : Prop :=
  ∀ s : State, ∃ t, step s = .next t

/-- A command byte placed by `withFetchWord` is what the next step runs; the model's own convention (log 7). -/
def Obligations.PlacedCommandRunsNext : Prop :=
  ∀ (s : State) (w : Nat) (i : Instr), decodeTableWord 8 w = some i →
    step (s.withFetchWord 8 w) =
      exec i { s with
        opc := BitVec.ofNat 8 w
        status := { busy := true, done := false, err := false, ecode := 0#4 } }

/-- The results of 70_reset_and_hazards.md section 2: each command issued straight after reset, on operands of 0. -/
def Obligations.CommandsStraightAfterResetHaveTheirResults : Prop :=
  ∀ v : Word, ∃ t,
    runs 2 { State.reset with events := [.host (.regWrite 4#3 v), .complete] } = .next t ∧ t.R.toNat = 0 ∧
      (v.toNat % 256 = 0x01 → t.status.word = 0x26#8) ∧ (v.toNat % 256 = 0x02 → t.status.word = 0x26#8) ∧
      (v.toNat % 256 = 0x03 → t.status.word = 0x02#8) ∧ (v.toNat % 256 = 0x04 → t.status.word = 0x16#8) ∧
      (v.toNat % 256 = 0x05 → t.status.word = 0x02#8) ∧ (v.toNat % 256 = 0x00 → t.status.word = 0x36#8)

/-! ### The whole block -/

/-- The invariants of 10_state.md section 7 hold after reset. -/
def Obligations.InvariantsHoldAfterReset : Prop :=
  BlockInv State.reset

/-- The invariants of 10_state.md section 7 are kept by every step, from every state that meets them. -/
def Obligations.EveryStepKeepsTheInvariants : Prop :=
  ∀ s : State, BlockInv s → ∃ t, step s = .next t ∧ BlockInv t

/-- R14: `BUSY` rises exactly at an acceptance and falls exactly at a completion or a reset, and while it is 1 every
write is ignored. -/
def Obligations.BusyRisesAtAcceptanceAndFallsAtCompletionOrReset : Prop :=
  ∀ s : State, ∃ t, step s = .next t ∧
    (s.status.busy = false →
      (t.status.busy = true ↔ ∃ v rest, s.events = .host (.regWrite 4#3 v) :: rest)) ∧
    (s.status.busy = true →
      (t.status.busy = false ↔ engineNext s = true ∨ ∃ rest, s.events = .host .reset :: rest)) ∧
    (s.status.busy = true → ∀ idx v rest, s.events = .host (.regWrite idx v) :: rest →
      t = { s with events := rest })

/-- R116: the completion event is pending exactly while `DONE` is 1, shown on the pin `done` with `err` beside it; it
becomes pending at every completion and only there, and is cleared by the acknowledgement while idle, by an acceptance, by
a reset, and by nothing else. -/
def Obligations.CompletionEventIsSetAndClearedAsStated : Prop :=
  ∀ (s : State) (p : PinsIn), ∃ t, step s = .next t ∧
    completionPending s = s.status.done ∧ (pinsOut p s).done = completionPending s ∧ (pinsOut p s).err = s.status.err ∧
    (s.status.busy = true → engineNext s = true → completionPending t = true) ∧
    (completionPending s = false → completionPending t = true → s.status.busy = true ∧ engineNext s = true) ∧
    (completionPending s = true →
      (completionPending t = false ↔
        (s.status.busy = false ∧ ∃ v rest, s.events = .host (.regWrite 5#3 v) :: rest ∧ v.toNat / 2 % 2 = 1) ∨
        (s.status.busy = false ∧ ∃ v rest, s.events = .host (.regWrite 4#3 v) :: rest) ∨
        ∃ rest, s.events = .host .reset :: rest))

/-- The error record (60_exceptions.md section 4): `ERR` and `ECODE` change at a completion, at an acceptance, which clears
them, and at a reset, and nowhere else; the acknowledgement keeps them. -/
def Obligations.ErrorRecordStaysUntilAcceptanceOrReset : Prop :=
  ∀ s : State, ∃ t, step s = .next t ∧
    (t.status.err ≠ s.status.err ∨ t.status.ecode ≠ s.status.ecode →
      (s.status.busy = true ∧ engineNext s = true) ∨
      (s.status.busy = false ∧ ∃ v rest, s.events = .host (.regWrite 4#3 v) :: rest) ∨
      ∃ rest, s.events = .host .reset :: rest) ∧
    (s.status.busy = false → (∃ v rest, s.events = .host (.regWrite 4#3 v) :: rest) →
      t.status.err = false ∧ t.status.ecode = 0#4)

/-- `R` while idle (10_state.md section 2): the host cannot write it, and it holds what the last completion wrote until the
next acceptance or reset. -/
def Obligations.ResultStaysUntilAcceptanceOrReset : Prop :=
  ∀ s : State, s.status.busy = false →
    ∃ t, step s = .next t ∧
      (t.R ≠ s.R →
        (∃ v rest, s.events = .host (.regWrite 4#3 v) :: rest) ∨ ∃ rest, s.events = .host .reset :: rest)

/-- The operand registers (10_state.md section 2): no command writes them; they change only by the host's own write to
them while idle, which stores its data, and by a reset. -/
def Obligations.OperandsChangeOnlyByHostWriteOrReset : Prop :=
  ∀ s : State, ∃ t, step s = .next t ∧
    (t.A ≠ s.A →
      (s.status.busy = false ∧ ∃ rest, s.events = .host (.regWrite 0#3 t.A) :: rest) ∨
      ∃ rest, s.events = .host .reset :: rest) ∧
    (t.B ≠ s.B →
      (s.status.busy = false ∧ ∃ rest, s.events = .host (.regWrite 1#3 t.B) :: rest) ∨
      ∃ rest, s.events = .host .reset :: rest) ∧
    (t.M ≠ s.M →
      (s.status.busy = false ∧ ∃ rest, s.events = .host (.regWrite 2#3 t.M) :: rest) ∨
      ∃ rest, s.events = .host .reset :: rest)

/-- `OPC` (10_state.md section 4) is written at an acceptance, with bits 7:0 of the data, and at a reset, and nowhere else;
no read shows it; and while idle nothing depends on it. That it is otherwise kept, at a completion and while idle, is the
model's choice (log 13): the spec lets a model keep or forget its idle value (R17, U16). -/
def Obligations.CommandLatchIsHidden : Prop :=
  ∀ s : State,
    (∃ t, step s = .next t ∧
      (t.opc ≠ s.opc →
        (s.status.busy = false ∧ ∃ v rest, s.events = .host (.regWrite 4#3 v) :: rest ∧
          t.opc.toNat = v.toNat % 256) ∨
        ∃ rest, s.events = .host .reset :: rest)) ∧
    (∀ (c : BitVec 8) (idx : BitVec 3), readValue idx { s with opc := c } = readValue idx s) ∧
    (s.status.busy = false → ∀ c : BitVec 8,
      ∃ t t', step s = .next t ∧ step { s with opc := c } = .next t' ∧ { t' with opc := t.opc } = t)

/-- The outcome is fixed at acceptance, which 40_command_execution.md section 2 derives from its rules of acceptance, busy
phase and completion: whatever the host does between acceptance and completion short of a reset, the completed command has
the outcome of the byte written and of the operands at acceptance, and the operands are as they were. That `OPC` still
holds the byte afterwards is the model's choice (log 13). -/
def Obligations.OutcomeIsFixedAtAcceptance : Prop :=
  ∀ (s : State) (v : Word) (during : List Transaction) (rest : List Event),
    s.status.busy = false → (∀ tr ∈ during, tr ≠ .reset) →
    s.events = .host (.regWrite 4#3 v) :: (during.map .host ++ .complete :: rest) →
    ∃ t, runs (during.length + 2) s = .next t ∧ t.events = rest ∧
      t.A = s.A ∧ t.B = s.B ∧ t.M = s.M ∧ t.opc = BitVec.ofNat 8 (v.toNat % 256) ∧
      (∀ w, outcomeOf (BitVec.ofNat 8 (v.toNat % 256)) s.A s.B s.M = .ok w →
        t.R = w ∧ t.status.word = 0x02#8) ∧
      (∀ e, outcomeOf (BitVec.ofNat 8 (v.toNat % 256)) s.A s.B s.M = .fail e →
        t.R.toNat = 0 ∧ t.status = { busy := false, done := true, err := true, ecode := e.code })

/-- Operands written while idle are the ones the next command uses (20_memory.md section 6, what a program can rely on):
three operand writes, a command write and the completion, from any idle state. That `OPC` still holds the byte afterwards
is the model's choice (log 13). -/
def Obligations.CommandUsesTheOperandsJustWritten : Prop :=
  ∀ (s : State) (a b m v : Word) (rest : List Event), s.status.busy = false →
    runs 5 { s with
      events := .host (.regWrite 0#3 a) :: .host (.regWrite 1#3 b) :: .host (.regWrite 2#3 m) ::
        .host (.regWrite 4#3 v) :: .complete :: rest } =
    .next (complete (outcomeOf (BitVec.ofNat 8 (v.toNat % 256)) a b m)
      { s with
        A := a
        B := b
        M := m
        opc := BitVec.ofNat 8 (v.toNat % 256)
        draws := s.draws + 1
        events := rest })

/-- Every busy phase ends (70_reset_and_hazards.md section 4). From every state, one step more than there are events left
leads to an idle state with no event left, and the block stays there. (That the engine completes once the events are used up is the
model's choice, its way to say the fairness of `Complete`: log 3.) -/
def Obligations.EveryBusyPhaseEnds : Prop :=
  ∀ s : State, ∃ t, Final t ∧ ∀ n : Nat, runs (s.events.length + 1 + n) s = .next t
end

