-- ==== Sys2Proof/Laws/Arithmetic.lean ====
section
/-! SUPPORT. What the arithmetic loops of Ops.lean compute, in the terms of R6: one lemma for each operation. -/

namespace Sys2Proof.Laws

open Sys2Proof.Machine

theorem euclidLoop_eq_gcd (fuel a b : Nat) (h : b < fuel) : euclidLoop fuel a b = Nat.gcd a b := by
  induction fuel generalizing a b with
  | zero => omega
  | succ fuel ih =>
    unfold euclidLoop
    split
    next hb => rw [hb, Nat.gcd_zero_right]
    next hb =>
      rw [ih b (a % b) (lt_of_lt_of_le (Nat.mod_lt a (by omega)) (by omega)), Nat.gcd_comm b,
        ← Nat.gcd_rec, Nat.gcd_comm]

/-- `euclid` is the greatest common divisor (R90), `gcd(0, 0) = 0` among the rest. -/
theorem euclid_eq_gcd (a b : Nat) : euclid a b = Nat.gcd a b :=
  euclidLoop_eq_gcd (b + 1) a b (Nat.lt_succ_self b)

theorem powLoop_modEq (m fuel r b e : Nat) (h : e ≤ fuel) : powLoop m fuel r b e ≡ r * b ^ e [MOD m] := by
  induction fuel generalizing r b e with
  | zero =>
    obtain rfl : e = 0 := by omega
    simp [powLoop, Nat.ModEq.refl]
  | succ fuel ih =>
    unfold powLoop
    split
    next he => simp [he, Nat.ModEq.refl]
    next he =>
      refine (ih _ _ (e / 2) (by omega)).trans ?_
      have hsq : (b * b % m) ^ (e / 2) ≡ b ^ (2 * (e / 2)) [MOD m] := by
        rw [pow_mul, pow_two]
        exact (Nat.mod_modEq (b * b) m).pow _
      split
      next hodd =>
        have he2 : b ^ e = b * b ^ (2 * (e / 2)) := by
          rw [← pow_succ']
          congr 1
          omega
        rw [he2, ← mul_assoc]
        exact (Nat.mod_modEq (r * b) m).mul hsq
      next heven =>
        have he2 : 2 * (e / 2) = e := by omega
        exact (Nat.ModEq.refl r).mul (hsq.trans (by rw [he2]))

/-- `powMod` is the power of R85 reduced modulo `m`. -/
theorem powMod_eq (a e m : Nat) (hm : 0 < m) : powMod a e m = a ^ e % m := by
  have h : powMod a e m ≡ a ^ e [MOD m] := by
    refine (powLoop_modEq m e (1 % m) (a % m) e le_rfl).trans ?_
    simpa using (Nat.mod_modEq 1 m).mul ((Nat.mod_modEq a m).pow e)
  rw [← h, Nat.mod_eq_of_lt (powMod_lt a e hm)]

/-- The extended loop keeps `r0 = s0 * a` and `r1 = s1 * a` modulo `m`, and ends with the greatest common divisor. -/
theorem bezoutLoop_modEq (a m : Int) (fuel r0 r1 : Nat) (s0 s1 : Int) (h : r1 < fuel)
    (h0 : (r0 : Int) ≡ s0 * a [ZMOD m]) (h1 : (r1 : Int) ≡ s1 * a [ZMOD m]) :
    ((Nat.gcd r0 r1 : Nat) : Int) ≡ bezoutLoop fuel r0 r1 s0 s1 * a [ZMOD m] := by
  induction fuel generalizing r0 r1 s0 s1 with
  | zero => omega
  | succ fuel ih =>
    unfold bezoutLoop
    split
    next hr => simpa [hr] using h0
    next hr =>
      have hgcd : Nat.gcd r0 r1 = Nat.gcd r1 (r0 % r1) := by
        rw [Nat.gcd_comm r1, ← Nat.gcd_rec, Nat.gcd_comm]
      rw [hgcd]
      refine ih r1 (r0 % r1) s1 _ (lt_of_lt_of_le (Nat.mod_lt r0 (by omega)) (by omega)) h1 ?_
      have hmod : ((r0 % r1 : Nat) : Int) = r0 - (r0 / r1 : Nat) * r1 := by
        have := Nat.mod_add_div r0 r1
        have h2 : ((r0 % r1 : Nat) : Int) + r1 * (r0 / r1 : Nat) = r0 := by exact_mod_cast this
        linarith
      rw [hmod, sub_mul, mul_assoc]
      exact h0.sub (h1.mul_left _)

/-- `modInverse` is the inverse of R95 where one exists, `1 mod m` on the right covering `m = 1` (90_conflicts.md C3). -/
theorem modInverse_spec (a m : Nat) (hm : 0 < m) (h : Nat.gcd a m = 1) : a * modInverse a m % m = 1 % m := by
  have hb := bezoutLoop_modEq a m (m + 1) a m 1 0 (Nat.lt_succ_self m) (by simp [Int.ModEq.refl])
    (by simp [Int.ModEq])
  rw [h] at hb
  have hd : ((modInverse a m : Nat) : Int) ≡ bezoutLoop (m + 1) a m 1 0 [ZMOD m] := by
    unfold modInverse
    rw [Int.toNat_of_nonneg (Int.emod_nonneg _ (by omega))]
    exact Int.mod_modEq _ _
  have : ((a * modInverse a m : Nat) : Int) ≡ ((1 : Nat) : Int) [ZMOD m] := by
    push_cast
    rw [mul_comm]
    exact (hd.mul_right _).trans (by simpa using hb.symm)
  exact Int.natCast_modEq_iff.mp this

/-- The inverse is unique in `[0, m)` (R95). -/
theorem inverse_unique {a m d d' : Nat} (hd : d < m) (hd' : d' < m) (h : Nat.gcd a m = 1)
    (he : a * d % m = 1 % m) (he' : a * d' % m = 1 % m) : d = d' := by
  have hm : a * d ≡ a * d' [MOD m] := he.trans he'.symm
  have := Nat.ModEq.cancel_left_of_coprime (Nat.gcd_comm a m ▸ h) hm
  rwa [Nat.ModEq, Nat.mod_eq_of_lt hd, Nat.mod_eq_of_lt hd'] at this

theorem isqrtLoop_spec (n fuel s : Nat) (hs : s * s ≤ n) (hf : n < (s + fuel + 1) * (s + fuel + 1)) :
    isqrtLoop n fuel s * isqrtLoop n fuel s ≤ n ∧ n < (isqrtLoop n fuel s + 1) * (isqrtLoop n fuel s + 1) := by
  induction fuel generalizing s with
  | zero => exact ⟨hs, hf⟩
  | succ fuel ih =>
    unfold isqrtLoop
    split
    next h => exact ih (s + 1) h (by rw [show s + 1 + fuel + 1 = s + (fuel + 1) + 1 by omega]; exact hf)
    next h => exact ⟨hs, by omega⟩

/-- `isqrt` is the exact integer square root of R6. -/
theorem isqrt_spec (n : Nat) : isqrt n * isqrt n ≤ n ∧ n < (isqrt n + 1) * (isqrt n + 1) :=
  isqrtLoop_spec n n 0 (Nat.zero_le n) (by nlinarith)

theorem dividedFrom_iff (a i count : Nat) :
    dividedFrom a i count = true ↔ ∃ d, i ≤ d ∧ d < i + count ∧ a % d = 0 := by
  induction count generalizing i with
  | zero => simp only [dividedFrom, Bool.false_eq_true, false_iff]; omega
  | succ count ih =>
    simp only [dividedFrom, Bool.or_eq_true, beq_iff_eq, ih]
    constructor
    · rintro (h | ⟨d, h1, h2, h3⟩)
      · exact ⟨i, le_rfl, by omega, h⟩
      · exact ⟨d, by omega, by omega, h3⟩
    · rintro ⟨d, h1, h2, h3⟩
      rcases Nat.eq_or_lt_of_le h1 with rfl | h
      · exact .inl h3
      · exact .inr ⟨d, h, by omega, h3⟩

/-- The trial division of R100, as its rule words it. -/
theorem hasTrialDivisor_iff (a : Nat) : hasTrialDivisor a = true ↔ ∃ i, 2 ≤ i ∧ i ≤ isqrt a ∧ a % i = 0 := by
  unfold hasTrialDivisor
  rw [dividedFrom_iff]
  constructor
  · rintro ⟨d, h1, h2, h3⟩
    exact ⟨d, h1, by omega, h3⟩
  · rintro ⟨d, h1, h2, h3⟩
    exact ⟨d, h1, by omega, h3⟩

/-- Trial division decides primality (R100; 93_implementation_defined.md G5). -/
theorem not_hasTrialDivisor_iff_prime (a : Nat) (h : 2 ≤ a) : hasTrialDivisor a = false ↔ Nat.Prime a := by
  rw [← Bool.not_eq_true, hasTrialDivisor_iff, Nat.prime_def_le_sqrt]
  have hs := isqrt_spec a
  constructor
  · intro hn
    refine ⟨h, fun d hd hle hdvd => hn ⟨d, hd, ?_, Nat.mod_eq_zero_of_dvd hdvd⟩⟩
    have := Nat.le_sqrt.mp hle
    nlinarith
  · rintro ⟨-, hp⟩ ⟨d, hd, hle, hmod⟩
    refine hp d hd (Nat.le_sqrt.mpr ?_) (Nat.dvd_of_mod_eq_zero hmod)
    nlinarith

end Sys2Proof.Laws
end

