-- ==== Sys2Proof/Laws/PerInstr.lean ====
section
/-! SUPPORT. Facts of every command as syntax, one lemma for each constructor. -/

namespace Sys2Proof.Laws.EncodedForm

/-- The command byte of `i` passes both checks of format `C` (R51, R53), and so does `i` itself. -/
def Statement (i : Instr) : Prop :=
  i.wellFormed = true ∧ (FormatC.ofByte (encode i)).zeroOk = true ∧ (FormatC.ofByte (encode i)).opOk = true

theorem modmul : Statement .modmul := by unfold Statement; decide

theorem modexp : Statement .modexp := by unfold Statement; decide

theorem gcd : Statement .gcd := by unfold Statement; decide

theorem modinv : Statement .modinv := by unfold Statement; decide

theorem isprime : Statement .isprime := by unfold Statement; decide

end Sys2Proof.Laws.EncodedForm
end

