-- ==== Sys2Proof/Laws/State.lean ====
section
/-! SUPPORT. One lemma for each field and each update of the state, so that no proof unfolds a record update, and the same
for the status word. -/

namespace Sys2Proof.Machine

/-! ### `draw` -/

@[simp] theorem draw_A (s : State) : (draw s).2.A = s.A := rfl
@[simp] theorem draw_B (s : State) : (draw s).2.B = s.B := rfl
@[simp] theorem draw_M (s : State) : (draw s).2.M = s.M := rfl
@[simp] theorem draw_R (s : State) : (draw s).2.R = s.R := rfl
@[simp] theorem draw_status (s : State) : (draw s).2.status = s.status := rfl
@[simp] theorem draw_opc (s : State) : (draw s).2.opc = s.opc := rfl
@[simp] theorem draw_events (s : State) : (draw s).2.events = s.events := rfl
@[simp] theorem draw_returned (s : State) : (draw s).2.returned = s.returned := rfl
@[simp] theorem draw_draws (s : State) : (draw s).2.draws = s.draws + 1 := rfl

/-! ### `normalCompletion` -/

@[simp] theorem normalCompletion_A (v : Word) (s : State) : (normalCompletion v s).A = s.A := rfl
@[simp] theorem normalCompletion_B (v : Word) (s : State) : (normalCompletion v s).B = s.B := rfl
@[simp] theorem normalCompletion_M (v : Word) (s : State) : (normalCompletion v s).M = s.M := rfl
@[simp] theorem normalCompletion_R (v : Word) (s : State) : (normalCompletion v s).R = v := rfl
@[simp] theorem normalCompletion_status (v : Word) (s : State) : (normalCompletion v s).status = Status.completedOk := rfl
@[simp] theorem normalCompletion_opc (v : Word) (s : State) : (normalCompletion v s).opc = s.opc := rfl
@[simp] theorem normalCompletion_events (v : Word) (s : State) : (normalCompletion v s).events = s.events := rfl
@[simp] theorem normalCompletion_returned (v : Word) (s : State) : (normalCompletion v s).returned = s.returned := rfl
@[simp] theorem normalCompletion_draws (v : Word) (s : State) : (normalCompletion v s).draws = s.draws := rfl

/-! ### `errorCompletion` -/

@[simp] theorem errorCompletion_A (e : ErrorCause) (s : State) : (errorCompletion e s).A = s.A := rfl
@[simp] theorem errorCompletion_B (e : ErrorCause) (s : State) : (errorCompletion e s).B = s.B := rfl
@[simp] theorem errorCompletion_M (e : ErrorCause) (s : State) : (errorCompletion e s).M = s.M := rfl
@[simp] theorem errorCompletion_R (e : ErrorCause) (s : State) : (errorCompletion e s).R = Word.zero := rfl
@[simp] theorem errorCompletion_status (e : ErrorCause) (s : State) : (errorCompletion e s).status = Status.completedErr e := rfl
@[simp] theorem errorCompletion_opc (e : ErrorCause) (s : State) : (errorCompletion e s).opc = s.opc := rfl
@[simp] theorem errorCompletion_events (e : ErrorCause) (s : State) : (errorCompletion e s).events = s.events := rfl
@[simp] theorem errorCompletion_returned (e : ErrorCause) (s : State) : (errorCompletion e s).returned = s.returned := rfl
@[simp] theorem errorCompletion_draws (e : ErrorCause) (s : State) : (errorCompletion e s).draws = s.draws := rfl

/-! ### `acknowledge` -/

@[simp] theorem acknowledge_A (v : Word) (s : State) : (acknowledge v s).A = s.A := rfl
@[simp] theorem acknowledge_B (v : Word) (s : State) : (acknowledge v s).B = s.B := rfl
@[simp] theorem acknowledge_M (v : Word) (s : State) : (acknowledge v s).M = s.M := rfl
@[simp] theorem acknowledge_R (v : Word) (s : State) : (acknowledge v s).R = s.R := rfl
@[simp] theorem acknowledge_status (v : Word) (s : State) : (acknowledge v s).status = s.status.acknowledge v := rfl
@[simp] theorem acknowledge_opc (v : Word) (s : State) : (acknowledge v s).opc = s.opc := rfl
@[simp] theorem acknowledge_events (v : Word) (s : State) : (acknowledge v s).events = s.events := rfl
@[simp] theorem acknowledge_returned (v : Word) (s : State) : (acknowledge v s).returned = s.returned := rfl
@[simp] theorem acknowledge_draws (v : Word) (s : State) : (acknowledge v s).draws = s.draws := rfl

/-! ### `accept` -/

@[simp] theorem accept_A (v : Word) (s : State) : (accept v s).A = s.A := rfl
@[simp] theorem accept_B (v : Word) (s : State) : (accept v s).B = s.B := rfl
@[simp] theorem accept_M (v : Word) (s : State) : (accept v s).M = s.M := rfl
@[simp] theorem accept_R (v : Word) (s : State) : (accept v s).R = Config.unspecifiedWord s.draws := rfl
@[simp] theorem accept_status (v : Word) (s : State) : (accept v s).status = Status.accepted := rfl
@[simp] theorem accept_opc (v : Word) (s : State) : (accept v s).opc = lowByte v := rfl
@[simp] theorem accept_events (v : Word) (s : State) : (accept v s).events = s.events := rfl
@[simp] theorem accept_returned (v : Word) (s : State) : (accept v s).returned = s.returned := rfl
@[simp] theorem accept_draws (v : Word) (s : State) : (accept v s).draws = s.draws + 1 := rfl

/-! ### `resetBlock` -/

@[simp] theorem resetBlock_A (s : State) : (resetBlock s).A = Word.zero := rfl
@[simp] theorem resetBlock_B (s : State) : (resetBlock s).B = Word.zero := rfl
@[simp] theorem resetBlock_M (s : State) : (resetBlock s).M = Word.zero := rfl
@[simp] theorem resetBlock_R (s : State) : (resetBlock s).R = Word.zero := rfl
@[simp] theorem resetBlock_status (s : State) : (resetBlock s).status = Status.afterReset := rfl
@[simp] theorem resetBlock_opc (s : State) : (resetBlock s).opc = 0#8 := rfl
@[simp] theorem resetBlock_events (s : State) : (resetBlock s).events = s.events := rfl
@[simp] theorem resetBlock_returned (s : State) : (resetBlock s).returned = s.returned := rfl
@[simp] theorem resetBlock_draws (s : State) : (resetBlock s).draws = s.draws := rfl

/-! ### `deliver` -/

@[simp] theorem deliver_A (r : Word × State) : (deliver r).A = r.2.A := rfl
@[simp] theorem deliver_B (r : Word × State) : (deliver r).B = r.2.B := rfl
@[simp] theorem deliver_M (r : Word × State) : (deliver r).M = r.2.M := rfl
@[simp] theorem deliver_R (r : Word × State) : (deliver r).R = r.2.R := rfl
@[simp] theorem deliver_status (r : Word × State) : (deliver r).status = r.2.status := rfl
@[simp] theorem deliver_opc (r : Word × State) : (deliver r).opc = r.2.opc := rfl
@[simp] theorem deliver_events (r : Word × State) : (deliver r).events = r.2.events := rfl
@[simp] theorem deliver_returned (r : Word × State) : (deliver r).returned = r.2.returned ++ [r.1] := rfl
@[simp] theorem deliver_draws (r : Word × State) : (deliver r).draws = r.2.draws := rfl

/-! ### `withFetchWord` -/

@[simp] theorem withFetchWord_A (s : State) (nbits w : Nat) : (s.withFetchWord nbits w).A = s.A := rfl
@[simp] theorem withFetchWord_B (s : State) (nbits w : Nat) : (s.withFetchWord nbits w).B = s.B := rfl
@[simp] theorem withFetchWord_M (s : State) (nbits w : Nat) : (s.withFetchWord nbits w).M = s.M := rfl
@[simp] theorem withFetchWord_R (s : State) (nbits w : Nat) : (s.withFetchWord nbits w).R = s.R := rfl
@[simp] theorem withFetchWord_status (s : State) (nbits w : Nat) : (s.withFetchWord nbits w).status = Status.accepted := rfl
@[simp] theorem withFetchWord_opc (s : State) (nbits w : Nat) : (s.withFetchWord nbits w).opc = BitVec.ofNat 8 (w % 2 ^ nbits) := rfl
@[simp] theorem withFetchWord_events (s : State) (nbits w : Nat) : (s.withFetchWord nbits w).events = .complete :: s.events := rfl
@[simp] theorem withFetchWord_returned (s : State) (nbits w : Nat) : (s.withFetchWord nbits w).returned = s.returned := rfl
@[simp] theorem withFetchWord_draws (s : State) (nbits w : Nat) : (s.withFetchWord nbits w).draws = s.draws := rfl

/-! ### `complete`, `afterRead`: what they leave alone -/

@[simp] theorem complete_A (o : CmdOutcome) (s : State) : (complete o s).A = s.A := by cases o <;> rfl
@[simp] theorem complete_B (o : CmdOutcome) (s : State) : (complete o s).B = s.B := by cases o <;> rfl
@[simp] theorem complete_M (o : CmdOutcome) (s : State) : (complete o s).M = s.M := by cases o <;> rfl
@[simp] theorem complete_opc (o : CmdOutcome) (s : State) : (complete o s).opc = s.opc := by cases o <;> rfl
@[simp] theorem complete_events (o : CmdOutcome) (s : State) : (complete o s).events = s.events := by cases o <;> rfl
@[simp] theorem complete_returned (o : CmdOutcome) (s : State) : (complete o s).returned = s.returned := by cases o <;> rfl
@[simp] theorem complete_draws (o : CmdOutcome) (s : State) : (complete o s).draws = s.draws := by cases o <;> rfl

@[simp] theorem complete_busy (o : CmdOutcome) (s : State) : (complete o s).status.busy = false := by cases o <;> rfl
@[simp] theorem complete_done (o : CmdOutcome) (s : State) : (complete o s).status.done = true := by cases o <;> rfl

@[simp] theorem afterRead_A (idx : BitVec 3) (s : State) : (afterRead idx s).A = s.A := by
  unfold afterRead; split <;> first | rfl | (split <;> rfl)
@[simp] theorem afterRead_B (idx : BitVec 3) (s : State) : (afterRead idx s).B = s.B := by
  unfold afterRead; split <;> first | rfl | (split <;> rfl)
@[simp] theorem afterRead_M (idx : BitVec 3) (s : State) : (afterRead idx s).M = s.M := by
  unfold afterRead; split <;> first | rfl | (split <;> rfl)
@[simp] theorem afterRead_R (idx : BitVec 3) (s : State) : (afterRead idx s).R = s.R := by
  unfold afterRead; split <;> first | rfl | (split <;> rfl)
@[simp] theorem afterRead_status (idx : BitVec 3) (s : State) : (afterRead idx s).status = s.status := by
  unfold afterRead; split <;> first | rfl | (split <;> rfl)
@[simp] theorem afterRead_opc (idx : BitVec 3) (s : State) : (afterRead idx s).opc = s.opc := by
  unfold afterRead; split <;> first | rfl | (split <;> rfl)
@[simp] theorem afterRead_events (idx : BitVec 3) (s : State) : (afterRead idx s).events = s.events := by
  unfold afterRead; split <;> first | rfl | (split <;> rfl)
@[simp] theorem afterRead_returned (idx : BitVec 3) (s : State) : (afterRead idx s).returned = s.returned := by
  unfold afterRead; split <;> first | rfl | (split <;> rfl)

/-! ### The status word -/

@[simp] theorem accepted_busy : Status.accepted.busy = true := rfl
@[simp] theorem accepted_done : Status.accepted.done = false := rfl
@[simp] theorem accepted_err : Status.accepted.err = false := rfl
@[simp] theorem accepted_ecode : Status.accepted.ecode = 0#4 := rfl
@[simp] theorem afterReset_busy : Status.afterReset.busy = false := rfl
@[simp] theorem afterReset_done : Status.afterReset.done = false := rfl
@[simp] theorem afterReset_err : Status.afterReset.err = false := rfl
@[simp] theorem afterReset_ecode : Status.afterReset.ecode = 0#4 := rfl
@[simp] theorem completedOk_busy : Status.completedOk.busy = false := rfl
@[simp] theorem completedOk_done : Status.completedOk.done = true := rfl
@[simp] theorem completedOk_err : Status.completedOk.err = false := rfl
@[simp] theorem completedOk_ecode : Status.completedOk.ecode = 0#4 := rfl
@[simp] theorem completedErr_busy (e : ErrorCause) : (Status.completedErr e).busy = false := rfl
@[simp] theorem completedErr_done (e : ErrorCause) : (Status.completedErr e).done = true := rfl
@[simp] theorem completedErr_err (e : ErrorCause) : (Status.completedErr e).err = true := rfl
@[simp] theorem completedErr_ecode (e : ErrorCause) : (Status.completedErr e).ecode = e.code := rfl

@[simp] theorem acknowledge_busy (v : Word) (st : Status) : (st.acknowledge v).busy = st.busy := by
  unfold Status.acknowledge; split <;> rfl
@[simp] theorem acknowledge_err (v : Word) (st : Status) : (st.acknowledge v).err = st.err := by
  unfold Status.acknowledge; split <;> rfl
@[simp] theorem acknowledge_ecode (v : Word) (st : Status) : (st.acknowledge v).ecode = st.ecode := by
  unfold Status.acknowledge; split <;> rfl
@[simp] theorem acknowledge_done (v : Word) (st : Status) :
    (st.acknowledge v).done = (st.done && !v.getLsbD 1) := by
  unfold Status.acknowledge; split <;> simp_all

theorem code_ne_zero (e : ErrorCause) : e.code ≠ 0#4 := by cases e <;> decide
theorem code_le_three (e : ErrorCause) : e.code.toNat ≤ 3 := by cases e <;> decide

end Sys2Proof.Machine
end

