-- ==== Sys2Proof/Laws/Step.lean ====
section
/-! SUPPORT. Everything a transaction, a turn of the engine and a step can do, each said once; later proofs cite these and
unfold nothing. -/

namespace Sys2Proof.Laws

open Sys2Proof.Machine

/-- The engine's step is the completion of the outcome that R68's table gives. -/
theorem completeStep_eq (s : State) : completeStep s = .next (complete (outcomeOf s.opc s.A s.B s.M) s) := by
  unfold completeStep outcomeOf
  cases decode s.opc with
  | command i => cases i <;> rfl
  | illegal why => rfl

theorem engineTurn_busy {s : State} (h : s.status.busy = true) :
    engineTurn s = .next (complete (outcomeOf s.opc s.A s.B s.M) s) := by
  rw [engineTurn, if_pos h, completeStep_eq]

theorem engineTurn_idle {s : State} (h : s.status.busy = false) : engineTurn s = .next s := by
  rw [engineTurn, if_neg (by simp [h])]

theorem regWrite_busy {s : State} (h : s.status.busy = true) (idx : BitVec 3) (v : Word) : regWrite idx v s = s := by
  rw [regWrite, if_pos h]

theorem regWrite_idle {s : State} (h : s.status.busy = false) (idx : BitVec 3) (v : Word) :
    regWrite idx v s = regWriteIdle idx v s := by
  rw [regWrite, if_neg (by simp [h])]

/-- A step on the engine's turn. -/
theorem step_engine {s : State} (h : engineNext s = true) : step s = engineTurn { s with events := s.events.tail } := by
  unfold step
  unfold engineNext at h
  split <;> simp_all
  rename_i he
  rw [← he]

/-- A step on the host's turn. -/
theorem step_host {s : State} {t : Transaction} {rest : List Event} (h : HostNext t rest s) :
    step s = .next (transact t { s with events := rest }) := by
  unfold step
  rw [h]

/-- Whose turn it is. -/
theorem engine_or_host (s : State) : engineNext s = true ∨ ∃ t rest, HostNext t rest s := by
  unfold engineNext HostNext
  rcases s.events with _ | ⟨_ | _, rest⟩ <;> simp

/-- Everything a step can do. -/
theorem step_cases {s t : State} (h : step s = .next t) :
    (engineNext s = true ∧ s.status.busy = true ∧
      t = complete (outcomeOf s.opc s.A s.B s.M) { s with events := s.events.tail }) ∨
    (engineNext s = true ∧ s.status.busy = false ∧ t = { s with events := s.events.tail }) ∨
    (∃ tr rest, HostNext tr rest s ∧ t = transact tr { s with events := rest }) := by
  rcases engine_or_host s with he | ⟨tr, rest, hh⟩
  · rw [step_engine he] at h
    cases hb : s.status.busy with
    | true =>
      rw [engineTurn_busy (by exact hb)] at h
      exact .inl ⟨he, rfl, by injection h with h; exact h.symm⟩
    | false =>
      rw [engineTurn_idle (by exact hb)] at h
      exact .inr (.inl ⟨he, rfl, by injection h with h; exact h.symm⟩)
  · rw [step_host hh] at h
    exact .inr (.inr ⟨tr, rest, hh, by injection h with h; exact h.symm⟩)

@[simp] theorem runs_zero (s : State) : runs 0 s = .next s := rfl

theorem run_succ (C : Host.Core) (k : Nat) (s t : C.State) (h : C.step s = .next t) : C.run (k + 1) s = C.run k t := by
  rw [Host.Core.run, h]

/-- A run goes on after a step. -/
theorem runs_succ {s t : State} (h : step s = .next t) (k : Nat) : runs (k + 1) s = runs k t :=
  run_succ core k s t h

/-- `v[7:0]` as a number. -/
theorem lowByte_eq (v : Word) : lowByte v = BitVec.ofNat 8 (v.toNat % 256) := by
  apply BitVec.eq_of_toNat_eq
  simp [lowByte]

/-- `v[1]` as a number. -/
theorem getLsbD_one_eq (v : Word) : v.getLsbD 1 = decide (v.toNat / 2 % 2 = 1) := by
  simp [BitVec.getLsbD, Nat.testBit_succ, Nat.testBit_zero]

/-- The status word as a number. -/
theorem word_toNat (st : Status) :
    st.word.toNat = st.busy.toNat + 2 * st.done.toNat + 4 * st.err.toNat + 16 * st.ecode.toNat := by
  have h : ∀ (b d e : Bool) (c : BitVec 4),
      (Status.word { busy := b, done := d, err := e, ecode := c }).toNat =
        b.toNat + 2 * d.toNat + 4 * e.toNat + 16 * c.toNat := by decide
  exact h st.busy st.done st.err st.ecode

@[simp] theorem regWriteIdle_A (v : Word) (s : State) : regWriteIdle 0#3 v s = { s with A := v } := rfl
@[simp] theorem regWriteIdle_B (v : Word) (s : State) : regWriteIdle 1#3 v s = { s with B := v } := rfl
@[simp] theorem regWriteIdle_M (v : Word) (s : State) : regWriteIdle 2#3 v s = { s with M := v } := rfl
@[simp] theorem regWriteIdle_R (v : Word) (s : State) : regWriteIdle 3#3 v s = s := rfl
@[simp] theorem regWriteIdle_CMD (v : Word) (s : State) : regWriteIdle 4#3 v s = accept v s := rfl
@[simp] theorem regWriteIdle_STATUS (v : Word) (s : State) : regWriteIdle 5#3 v s = acknowledge v s := rfl

/-- Everything a write while idle can do. -/
theorem regWriteIdle_cases (idx : BitVec 3) (v : Word) (s : State) :
    (idx = 0#3 ∧ regWriteIdle idx v s = { s with A := v }) ∨
    (idx = 1#3 ∧ regWriteIdle idx v s = { s with B := v }) ∨
    (idx = 2#3 ∧ regWriteIdle idx v s = { s with M := v }) ∨
    (idx = 4#3 ∧ regWriteIdle idx v s = accept v s) ∨
    (idx = 5#3 ∧ regWriteIdle idx v s = acknowledge v s) ∨
    ((idx = 3#3 ∨ idx = 6#3 ∨ idx = 7#3) ∧ regWriteIdle idx v s = s) := by
  have h : ∀ i : BitVec 3, i = 0#3 ∨ i = 1#3 ∨ i = 2#3 ∨ i = 3#3 ∨ i = 4#3 ∨ i = 5#3 ∨ i = 6#3 ∨ i = 7#3 := by
    decide
  rcases h idx with rfl | rfl | rfl | rfl | rfl | rfl | rfl | rfl <;> simp [regWriteIdle, portReg]

/-- A transaction leaves the events to come alone. -/
@[simp] theorem transact_events (t : Transaction) (s : State) : (transact t s).events = s.events := by
  cases t with
  | regRead idx => simp [transact, regRead]
  | regWrite idx v =>
    simp only [transact, regWrite]
    split
    · rfl
    · rcases regWriteIdle_cases idx v s with ⟨-, h⟩ | ⟨-, h⟩ | ⟨-, h⟩ | ⟨-, h⟩ | ⟨-, h⟩ | ⟨-, h⟩ <;> rw [h] <;> rfl
  | reset => rfl

/-- While busy, a transaction other than a reset leaves every register of the block alone. -/
theorem transact_busy {s : State} {t : Transaction} (hb : s.status.busy = true) (ht : t ≠ .reset) :
    ∃ (ret : List Word) (n : Nat), transact t s = { s with returned := ret, draws := n } := by
  cases t with
  | regRead idx =>
    refine ⟨s.returned ++ [readValue idx s], (afterRead idx s).draws, ?_⟩
    simp only [transact, regRead, deliver, afterRead]
    split
    case h_1 | h_2 | h_3 | h_4 | h_5 | h_6 => rfl
    case h_7 => split <;> rfl
  | regWrite idx v => exact ⟨s.returned, s.draws, by rw [transact, regWrite_busy hb]⟩
  | reset => exact absurd rfl ht

/-- A write while idle, as a step. -/
theorem step_write_idle {s : State} {idx : BitVec 3} {v : Word} {rest : List Event} (hb : s.status.busy = false)
    (h : HostNext (.regWrite idx v) rest s) : step s = .next (regWriteIdle idx v { s with events := rest }) := by
  rw [step_host h, transact, regWrite_idle (by exact hb)]

/-- On the engine's turn no transaction of the host is next. -/
theorem not_hostNext_of_engineNext {s : State} (h : engineNext s = true) (t : Transaction) (rest : List Event) :
    s.events ≠ .host t :: rest := by
  intro he
  unfold engineNext at h
  rw [he] at h
  cases h

/-- Every completion leaves a state that meets the invariants of 10_state.md section 7. -/
theorem complete_inv (o : CmdOutcome) (s : State) : BlockInv (complete o s) := by
  cases o with
  | ok v => exact ⟨by simp [complete], by simp [complete], by simp [complete], by simp [complete]⟩
  | fail e =>
    exact ⟨by simp [complete], by simp [complete, code_ne_zero], by simp [complete, code_le_three],
      by simp [complete]⟩

end Sys2Proof.Laws
end

