-- ==== Sys2Proof/Laws/Pins.lean ====
section
/-! SUPPORT. Everything one clock edge can do, said once for the edge and once for the clocked block. -/

namespace Sys2Proof.Laws

open Sys2Proof.Machine

/-- Sampling a read changes no register of the block. -/
theorem sampleRead_eq (p : PinsIn) (s : State) :
    ∃ (ret : List Word) (n : Nat), sampleRead p s = { s with returned := ret, draws := n } := by
  unfold sampleRead
  split
  · refine ⟨s.returned ++ [readValue p.addr s], (afterRead p.addr s).draws, ?_⟩
    simp only [regRead, deliver, afterRead]
    split
    case h_1 | h_2 | h_3 | h_4 | h_5 | h_6 => rfl
    case h_7 => split <;> rfl
  · exact ⟨s.returned, s.draws, rfl⟩

theorem edge_reset {p : PinsIn} (h : p.rst = true) (completes : Bool) (s : State) :
    edge p completes s = .next (resetBlock (sampleRead p s)) := by
  rw [edge, if_pos h]

theorem edge_busy {p : PinsIn} {s : State} (h : p.rst = false) (hb : s.status.busy = true) :
    edge p false s = .next (sampleRead p s) := by
  simp [edge, h, hb]

/-- The engine completes at this edge: the operands are those before the edge. -/
theorem edge_completes {p : PinsIn} {s : State} (h : p.rst = false) (hb : s.status.busy = true) :
    edge p true s = .next (complete (outcomeOf s.opc s.A s.B s.M) (sampleRead p s)) := by
  obtain ⟨ret, n, hs⟩ := sampleRead_eq p s
  simp [edge, h, hb, completeStep_eq, hs]

theorem edge_idle {p : PinsIn} {s : State} (h : p.rst = false) (hb : s.status.busy = false) (completes : Bool) :
    edge p completes s =
      .next (if p.writes then regWriteIdle p.addr p.wdata s else sampleRead p s) := by
  cases hw : p.writes <;> simp [edge, h, hb, hw]

/-- The clocked block takes the edge that its count decides. -/
theorem tick_eq {c : Clocked} {p : PinsIn} {t : State} (h : edge p c.completesNow c.st = .next t) :
    c.tick p = .next { st := t, age := if c.st.status.busy && t.status.busy then c.age + 1 else 0 } := by
  rw [Clocked.tick, h]

end Sys2Proof.Laws
end

