-- ==== Sys2Proof/Tests/Slice0.lean ====
section
/-! SUPPORT. Tests: well-formedness, decoding, one-step results and the port, each expected value taken from the section or
vector of spec/ that its comment names; then, for each obligation with hypotheses, a witness that meets them. -/

namespace Sys2Proof.Tests

open Sys2Proof.Machine

/-- A word with a small value. -/
def w (b : BitVec 8) : Word := zextByte b

/-- An idle block with operands, nothing completed yet. -/
def idle (a b m : BitVec 8) (ev : List Event) : State :=
  { State.reset with A := w a, B := w b, M := w m, events := ev }

/-- A block with the command byte `c` in flight and the engine's turn next. -/
def inFlight (c a b m : BitVec 8) : State :=
  { State.reset with
    A := w a
    B := w b
    M := w m
    status := Status.accepted
    opc := c
    events := [.complete] }

/-- `R` and the status word after a step, if it answers a next state. -/
def outcome (o : Host.Outcome State Fault Refusal) : Option (Word × BitVec 8) :=
  match o with
  | .next s => some (s.R, s.status.word)
  | .fault _ => none
  | .refused _ => none

/-- `A`, `M` and the status word after a step. -/
def operands (o : Host.Outcome State Fault Refusal) : Option (Word × Word × BitVec 8) :=
  match o with
  | .next s => some (s.A, s.M, s.status.word)
  | .fault _ => none
  | .refused _ => none

/-- The values returned to the host after a step. -/
def returned (o : Host.Outcome State Fault Refusal) : List Word :=
  match o with
  | .next s => s.returned
  | .fault _ => []
  | .refused _ => []

/-! ### Well-formedness: an ill-formed byte for each check (R51, R53) -/

theorem test_wf_refuses_zero_field : FormatC.zeroOk { zero := 1#4, op := 1#4 } = false := by decide
theorem test_wf_refuses_opcode_zero : FormatC.opOk { zero := 0#4, op := 0#4 } = false := by decide
theorem test_wf_refuses_opcode_six : FormatC.opOk { zero := 0#4, op := 6#4 } = false := by decide
theorem test_wf_accepts_legal_byte : FormatC.wellFormed { zero := 0#4, op := 5#4 } = true := by decide

/-! ### Decoding: the bytes of 30_encoding.md section 3, bit by bit, and the illegal bytes of 95_test_vectors.md -/

theorem test_decode_modmul : decode 0b00000001#8 = .command .modmul := by decide
theorem test_decode_modexp : decode 0b00000010#8 = .command .modexp := by decide
theorem test_decode_gcd : decode 0b00000011#8 = .command .gcd := by decide
theorem test_decode_modinv : decode 0b00000100#8 = .command .modinv := by decide
theorem test_decode_isprime : decode 0b00000101#8 = .command .isprime := by decide
theorem test_decode_zero_is_illegal : decode 0x00#8 = .illegal .opcodeUnassigned := by decide
theorem test_decode_0F_is_illegal : decode 0x0F#8 = .illegal .opcodeUnassigned := by decide
theorem test_decode_11_is_illegal : decode 0x11#8 = .illegal .zeroFieldNotZero := by decide
theorem test_decode_81_is_illegal : decode 0x81#8 = .illegal .zeroFieldNotZero := by decide
theorem test_table_row_isprime : decodeTableWord 8 5 = some .isprime := by decide
theorem test_table_row_unassigned : decodeTableWord 8 6 = none := by decide

/-! ### The commands: vectors of 95_test_vectors.md section 2, as the engine's step -/

/-- The product of 16 bits is exact. -/
theorem test_modmul_full_product : outcome (step (inFlight 1 255 255 254)) = some (w 1, 0x02#8) := by decide
theorem test_modmul_zero_modulus : outcome (step (inFlight 1 3 4 0)) = some (w 0, 0x26#8) := by decide
theorem test_modexp_largest_exponent : outcome (step (inFlight 2 2 255 255)) = some (w 128, 0x02#8) := by decide
/-- Exponent 0 and modulus 1 together. -/
theorem test_modexp_zero_to_zero_mod_one : outcome (step (inFlight 2 0 0 1)) = some (w 0, 0x02#8) := by decide
theorem test_gcd_swaps_and_ignores_m : outcome (step (inFlight 3 18 48 0)) = some (w 6, 0x02#8) := by decide
theorem test_gcd_of_zeros : outcome (step (inFlight 3 0 0 99)) = some (w 0, 0x02#8) := by decide
/-- Normalized from -17. -/
theorem test_modinv_normalized : outcome (step (inFlight 4 7 99 120)) = some (w 103, 0x02#8) := by decide
theorem test_modinv_zero_modulus : outcome (step (inFlight 4 1 0 0)) = some (w 0, 0x16#8) := by decide
/-- The bound is inclusive: only 11 = isqrt(121) divides 121. -/
theorem test_isprime_square_of_prime : outcome (step (inFlight 5 121 0 0)) = some (w 0, 0x02#8) := by decide
theorem test_isprime_largest_prime : outcome (step (inFlight 5 251 7 0)) = some (w 1, 0x02#8) := by decide
theorem test_illegal_byte : outcome (step (inFlight 0x15 1 1 1)) = some (w 0, 0x36#8) := by decide

/-- Wider operands (rows W16). -/
theorem test_arithmetic_of_wide_operands :
    powMod 65535 65535 65521 = 18532 ∧ powMod 2790 2753 3233 = 65 ∧ modInverse 17 3120 = 2753 ∧
    modInverse 65535 65521 = 60841 ∧ euclid 65535 65521 = 1 := by decide

/-- The largest 16-bit prime, and 65533 = 13 * 71 * 71 (rows W16). -/
theorem test_trial_division_of_wide_operands : hasTrialDivisor 65521 = false ∧ hasTrialDivisor 65533 = true := by
  decide +kernel

/-! ### The port: rows of the protocol table of 95_test_vectors.md section 2 -/

/-- Row 5. -/
theorem test_command_write_is_accepted :
    operands (step (idle 4 0 8 [Line.event (.command .modinv)])) = some (w 4, w 8, 0x01#8) := by decide
/-- Row 6. -/
theorem test_write_while_busy_is_ignored :
    operands (step { inFlight 4 4 0 8 with events := [Line.event (.wr .A (w 99))] }) = some (w 4, w 8, 0x01#8) := by
  decide
/-- Row 10. -/
theorem test_ack_keeps_error_record :
    outcome (step { idle 4 0 8 [Line.event .ack] with status := Status.completedErr .noInverse }) =
      some (w 0, 0x14#8) := by decide
/-- Row 11. -/
theorem test_status_write_without_bit_one :
    outcome (step { idle 4 0 8 [Line.event (.wr .STATUS (w 0xFD))] with
      status := { Status.completedErr .noInverse with done := false } }) = some (w 0, 0x14#8) := by decide
/-- Row 9: the status word as it is read. -/
theorem test_read_status :
    returned (step { idle 4 0 8 [Line.event (.rd .STATUS)] with status := Status.completedErr .noInverse }) =
      [w 0x16] := by decide
/-- Row 1. -/
theorem test_read_reserved : returned (step (idle 4 5 8 [.host (.regRead 7)])) = [w 0] := by decide
/-- Row 17. -/
theorem test_reset_while_busy :
    operands (step { inFlight 2 13 0 8 with events := [Line.event .reset] }) = some (w 0, w 0, 0x00#8) := by decide
/-- The encoding of a line on the pins (R57). -/
theorem test_pins_of_ack :
    (Line.transaction .ack).pins = { rst := false, sel := true, we := true, addr := 5, wdata := w 0x02 } := by decide
/-- The expansion of `isprime 13` (R58), with one poll that finds the block busy. -/
theorem test_macro_isprime :
    macroIsprime (w 13) 1 =
      [.host (.regWrite 0 (w 13)), .host (.regWrite 4 (w 5)), .host (.regRead 5), .complete, .host (.regRead 5),
        .host (.regRead 5), .host (.regRead 3)] := by decide
/-- A write at the edge of a completion is ignored, and the completion happens (R48). -/
theorem test_edge_write_meets_completion :
    operands (edge (Line.transaction (.wr .A (w 9))).pins true (inFlight 1 7 103 120)) =
      some (w 7, w 120, 0x02#8) := by decide
/-- A read in a reset cycle returns the value before the edge (R48, U18). -/
theorem test_edge_read_in_reset_cycle :
    returned (edge { rst := true, sel := true, we := false, addr := 0, wdata := w 0 } false (idle 7 0 0 [])) = [w 7] ∧
    operands (edge { rst := true, sel := true, we := false, addr := 0, wdata := w 0 } false (idle 7 0 0 [])) =
      some (w 0, w 0, 0x00#8) := by decide
/-- From reset, a row of the opcode table placed as the next instruction runs. -/
theorem test_placed_command_runs :
    outcome (step (State.reset.withFetchWord 8 4)) = some (w 0, 0x16#8) ∧
    outcome (step (State.reset.withFetchWord 8 5)) = some (w 0, 0x02#8) := by decide

/-! ### Witnesses: states and operands that meet the hypotheses of the obligations -/

theorem witness_DecodeAndEncodeAgree : decode 5#8 = .command .isprime := by decide

theorem witness_IllegalBytesAreAcceptedAndEndWithCodeThree :
    ¬(1 ≤ (0x06#8).toNat ∧ (0x06#8).toNat ≤ 5) ∧ ¬(1 ≤ (0x00#8).toNat ∧ (0x00#8).toNat ≤ 5) ∧
    (idle 1 1 1 []).status.busy = false ∧ (w 6).toNat % 256 = (0x06#8).toNat ∧
    (inFlight 6 1 1 1).status.busy = true ∧ engineNext (inFlight 6 1 1 1) = true ∧ (inFlight 6 1 1 1).opc = 6#8 := by
  decide

theorem witness_idle_and_busy :
    (idle 7 103 120 []).status.busy = false ∧ (inFlight 1 7 103 120).status.busy = true := by decide

/-- For `ReadOfResultIsUnspecifiedWhileBusy` and `CommandWriteWhileIdleIsAcceptance`, one state for each clause; and for
`OperandWriteWhileIdleStoresTheWord`, `EveryWriteWhileBusyIsIgnored`, `ResultStaysUntilAcceptanceOrReset`,
`CommandUsesTheOperandsJustWritten`. -/
theorem witness_ReadOfResultIsUnspecifiedWhileBusy :
    (idle 7 103 120 []).status.busy = false ∧ (inFlight 1 7 103 120).status.busy = true := witness_idle_and_busy
theorem witness_CommandWriteWhileIdleIsAcceptance :
    (idle 7 103 120 []).status.busy = false ∧ (inFlight 1 7 103 120).status.busy = true := witness_idle_and_busy
theorem witness_OperandWriteWhileIdleStoresTheWord : (idle 7 103 120 []).status.busy = false :=
  witness_idle_and_busy.1
theorem witness_EveryWriteWhileBusyIsIgnored : (inFlight 1 7 103 120).status.busy = true := witness_idle_and_busy.2
theorem witness_ResultStaysUntilAcceptanceOrReset : (idle 7 103 120 []).status.busy = false :=
  witness_idle_and_busy.1
theorem witness_CommandUsesTheOperandsJustWritten : (idle 7 103 120 []).status.busy = false :=
  witness_idle_and_busy.1

theorem witness_ReadOfTriggerAndReservedIndicesIsZero :
    ∃ a b c : BitVec 3, (a = 4#3 ∨ a = 6#3 ∨ a = 7#3) ∧ (b = 4#3 ∨ b = 6#3 ∨ b = 7#3) ∧
      (c = 4#3 ∨ c = 6#3 ∨ c = 7#3) ∧ a ≠ b ∧ b ≠ c ∧ a ≠ c := by decide

/-- The index whose read may draw a free value, and one whose read may not. -/
theorem witness_ReadReturnsTheRegisterAndChangesNothing : ∃ a : BitVec 3, a ≠ 3#3 := by decide

theorem witness_StatusWriteClearsDoneAndNothingElse :
    (idle 7 103 120 []).status.busy = false ∧ (w 0x02).toNat / 2 % 2 = 1 ∧ (w 0xFD).toNat / 2 % 2 = 0 := by decide

theorem witness_WriteToResultOrReservedIndexIsIgnored :
    ∃ a b c : BitVec 3, (a = 3#3 ∨ a = 6#3 ∨ a = 7#3) ∧ (b = 3#3 ∨ b = 6#3 ∨ b = 7#3) ∧
      (c = 3#3 ∨ c = 6#3 ∨ c = 7#3) ∧ a ≠ b ∧ b ≠ c ∧ a ≠ c := by decide

theorem witness_ResetPinHasPriorityOverAccessAndCompletion :
    ∃ p : PinsIn, p.rst = true ∧ p.writes = true :=
  ⟨{ rst := true, sel := true, we := true, addr := 4#3, wdata := w 1 }, by decide⟩

/-- Both clauses: a busy state at the engine's turn, which becomes idle. -/
theorem witness_ResetWhileBusyDiscardsTheCommand :
    (inFlight 2 13 0 8).status.busy = true ∧
    outcome (step (inFlight 2 13 0 8)) = some (w 1, 0x02#8) := by decide

/-- An accepting edge; then a sequence of inputs shorter than `LAT`, and one of exactly `LAT`. -/
theorem witness_BusyPhaseLastsLatencyCycles :
    ∃ (c : Clocked) (p : PinsIn) (o : BitVec 8) (short exact : List PinsIn),
      c.st.status.busy = false ∧ p.rst = false ∧ p.writes = true ∧ p.addr = 4#3 ∧
      (∀ q ∈ short, q.rst = false) ∧ short.length < Config.LAT o c.st.A c.st.B c.st.M ∧
      (∀ q ∈ exact, q.rst = false) ∧ exact.length = Config.LAT o c.st.A c.st.B c.st.M := by
  refine ⟨{ st := idle 7 103 120 [], age := 0 }, (Line.transaction (.command .modmul)).pins, 1#8, [],
    List.replicate (Config.LAT 1#8 (w 7) (w 103) (w 120)) (Line.transaction (.rd .R)).pins,
    by decide, by decide, by decide, by decide, by decide, Config.one_le_LAT _ _ _ _, ?_, List.length_replicate⟩
  intro q hq
  rw [List.eq_of_mem_replicate hq]
  decide

/-- A block that has just accepted a command, and an input that reads. -/
theorem witness_EveryClockEdgeKeepsTheClockedInvariant :
    ∃ (c : Clocked) (p : PinsIn), ClockedInv c ∧ c.st.status.busy = true ∧ p.rst = false ∧ p.reads = true :=
  ⟨{ st := inFlight 1 7 103 120, age := 0 }, (Line.transaction (.rd .R)).pins,
    ⟨by decide, fun _ => Config.one_le_LAT _ _ _ _, by decide⟩, by decide, by decide, by decide⟩

theorem witness_ModmulWritesTheExactProductModuloM :
    (idle 3 4 0 []).M.toNat = 0 ∧ (idle 255 255 1 []).M.toNat ≠ 0 := by decide
theorem witness_ModexpWritesThePowerModuloM :
    (idle 0 0 0 []).M.toNat = 0 ∧ (idle 2 255 1 []).M.toNat ≠ 0 := by decide
theorem witness_ResultsStayInTheirRanges : (idle 3 7 1 []).M.toNat ≠ 0 := by decide
theorem witness_GcdDividesBothAndIsTheLargest :
    (idle 0 5 0 []).B.toNat ≠ 0 ∧ (2 : Nat) ∣ (idle 4 8 0 []).A.toNat ∧ 2 ∣ (idle 4 8 0 []).B.toNat := by decide
/-- `M = 0` with `A = 1`, a common divisor, and an invertible operand (`M = 1` too). -/
theorem witness_ModinvWritesTheUniqueInverseOrFails :
    (idle 1 0 0 []).M.toNat = 0 ∧ Nat.gcd (idle 4 0 8 []).A.toNat (idle 4 0 8 []).M.toNat ≠ 1 ∧
    (idle 7 0 120 []).M.toNat ≠ 0 ∧ Nat.gcd (idle 7 0 120 []).A.toNat (idle 7 0 120 []).M.toNat = 1 ∧
    (idle 0 0 1 []).M.toNat ≠ 0 ∧ Nat.gcd (idle 0 0 1 []).A.toNat (idle 0 0 1 []).M.toNat = 1 := by decide
theorem witness_InverseIsVerifiedByOneModmul :
    1 < (idle 7 0 120 []).M.toNat ∧ Nat.gcd (idle 7 0 120 []).A.toNat (idle 7 0 120 []).M.toNat = 1 := by decide

/-- Example 1 and Example 2 of 95_test_vectors.md: p = 11, q = 13, e = 7, m = 72. -/
theorem witness_EncryptThenDecryptReturnsThePlaintext :
    Nat.Prime 11 ∧ Nat.Prime 13 ∧ 11 ≠ 13 ∧ (idle 7 0 120 []).M.toNat = (11 - 1) * (13 - 1) ∧
    Nat.gcd (idle 7 0 120 []).A.toNat ((11 - 1) * (13 - 1)) = 1 ∧ (idle 72 7 143 []).M.toNat = 11 * 13 ∧
    (idle 72 7 143 []).A.toNat < 11 * 13 ∧ (idle 72 7 143 []).B = (idle 7 0 120 []).A ∧
    (idle 0 0 143 []).M = (idle 72 7 143 []).M :=
  ⟨by norm_num, by norm_num, by decide, by decide, by decide, by decide, by decide, by decide, by decide⟩

/-- Two states that differ in `R`, in what was returned and in the events to come. -/
theorem witness_OutcomeIsAFunctionOfOpcodeAndOperands :
    ∃ s s' : State, s.status.busy = true ∧ s'.status.busy = true ∧ engineNext s = true ∧ engineNext s' = true ∧
      s.opc = s'.opc ∧ s.A = s'.A ∧ s.B = s'.B ∧ s.M = s'.M ∧ s ≠ s' :=
  ⟨inFlight 1 7 103 120, { inFlight 1 7 103 120 with R := w 9, returned := [w 1], events := [] }, by decide⟩

/-- A busy state at the engine's turn with each of the five commands and an illegal byte latched; and a host's turn in a
state without an error. -/
theorem witness_EachErrorCodeHasExactlyItsCause :
    (∀ c ∈ [0#8, 1#8, 2#8, 3#8, 4#8, 5#8, 6#8],
      (inFlight c 1 0 0).status.busy = true ∧ engineNext (inFlight c 1 0 0) = true) ∧
    (idle 1 0 0 []).status.err = false ∧ (idle 1 0 0 []).status.ecode = 0#4 := by decide
theorem witness_StepRunsTheLatchedCommand :
    (inFlight 5 13 0 0).status.busy = true ∧ engineNext (inFlight 5 13 0 0) = true ∧
    decode (inFlight 5 13 0 0).opc = .command .isprime := by decide
theorem witness_CompleteAppliesTheOutcomeOfTheLatchedByte :
    (∀ c ∈ [1#8, 2#8, 3#8, 4#8, 5#8, 6#8],
      (inFlight c 1 2 3).status.busy = true ∧ engineNext (inFlight c 1 2 3) = true) ∧
    decode (inFlight 1 1 2 3).opc = .command .modmul ∧ decode (inFlight 2 1 2 3).opc = .command .modexp ∧
    decode (inFlight 3 1 2 3).opc = .command .gcd ∧ decode (inFlight 4 1 2 3).opc = .command .modinv ∧
    decode (inFlight 5 1 2 3).opc = .command .isprime ∧
    decode (inFlight 6 1 2 3).opc = .illegal .opcodeUnassigned := by decide
theorem witness_EngineHasNoStepWhileIdle :
    (idle 1 2 3 []).status.busy = false ∧ engineNext (idle 1 2 3 []) = true ∧
    engineNext (idle 1 2 3 [.complete]) = true := by decide
theorem witness_PlacedCommandRunsNext : decodeTableWord 8 1 = some .modmul := by decide
theorem witness_CommandsStraightAfterResetHaveTheirResults :
    (w 1).toNat % 256 = 1 ∧ (w 2).toNat % 256 = 2 ∧ (w 3).toNat % 256 = 3 ∧ (w 4).toNat % 256 = 4 ∧
    (w 5).toNat % 256 = 5 ∧ (w 0).toNat % 256 = 0 := by decide

/-- Three states that meet the invariants: busy, idle after a result, idle after an error. -/
theorem witness_EveryStepKeepsTheInvariants :
    BlockInv (inFlight 1 7 103 120) ∧ BlockInv { idle 7 103 120 [] with R := w 1, status := Status.completedOk } ∧
    BlockInv { idle 4 0 8 [] with status := Status.completedErr .noInverse } := by decide

/-- An idle state at an acceptance, and busy states at the engine's turn, at a reset and at a write. -/
theorem witness_BusyRisesAtAcceptanceAndFallsAtCompletionOrReset :
    (idle 7 103 120 [.host (.regWrite 4#3 (w 1))]).status.busy = false ∧
    engineNext (inFlight 1 7 103 120) = true ∧ (inFlight 1 7 103 120).status.busy = true ∧
    HostNext .reset [] { inFlight 1 7 103 120 with events := [.host .reset] } ∧
    HostNext (.regWrite 0#3 (w 9)) [] { inFlight 1 7 103 120 with events := [.host (.regWrite 0#3 (w 9))] } := by
  decide

/-- A state with the event pending, cleared by an acknowledgement, by an acceptance and by a reset, and one where a
completion sets it. -/
theorem witness_CompletionEventIsSetAndClearedAsStated :
    completionPending { idle 7 0 120 [Line.event .ack] with status := Status.completedOk } = true ∧
    outcome (step { idle 7 0 120 [Line.event .ack] with status := Status.completedOk }) = some (w 0, 0x00#8) ∧
    (idle 7 0 120 [Line.event (.command .gcd)]).status.busy = false ∧
    operands (step { idle 7 0 120 [Line.event (.command .gcd)] with status := Status.completedOk }) =
      some (w 7, w 120, 0x01#8) ∧
    operands (step { idle 7 0 120 [Line.event .reset] with status := Status.completedOk }) =
      some (w 0, w 0, 0x00#8) ∧
    completionPending (inFlight 1 7 103 120) = false ∧
    outcome (step (inFlight 1 7 103 120)) = some (w 1, 0x02#8) := by decide

/-- A completion that sets the error record, and an acceptance and a reset that clear it. -/
theorem witness_ErrorRecordStaysUntilAcceptanceOrReset :
    outcome (step (inFlight 4 4 0 8)) = some (w 0, 0x16#8) ∧
    operands (step { idle 4 0 8 [Line.event (.command .gcd)] with status := Status.completedErr .noInverse }) =
      some (w 4, w 8, 0x01#8) ∧
    outcome (step { idle 4 0 8 [Line.event .reset] with status := Status.completedErr .noInverse }) =
      some (w 0, 0x00#8) := by decide

/-- A step that changes `A`, by a write while idle, and a step that changes `M`, by a reset. -/
theorem witness_OperandsChangeOnlyByHostWriteOrReset :
    operands (step (idle 4 0 8 [Line.event (.wr .A (w 99))])) = some (w 99, w 8, 0x00#8) ∧
    operands (step (idle 0 0 8 [Line.event .reset])) = some (w 0, w 0, 0x00#8) := by decide

/-- A step that changes `OPC`, from an idle state. -/
theorem witness_CommandLatchIsHidden :
    (idle 1 2 3 [Line.event (.command .gcd)]).status.busy = false ∧
    (idle 1 2 3 [Line.event (.command .gcd)]).opc ≠ lowByte (zextByte (encode .gcd)) := by decide

/-- A write to `CMD`, then a dropped write and a read of `R`, then the engine's turn; with a result and with an error. -/
theorem witness_OutcomeIsFixedAtAcceptance :
    ∃ (s : State) (during : List Transaction), s.status.busy = false ∧ (∀ tr ∈ during, tr ≠ .reset) ∧
      s.events = .host (.regWrite 4#3 (w 1)) :: (during.map .host ++ .complete :: []) ∧
      outcomeOf 1#8 s.A s.B s.M = .ok (w 1) ∧ outcomeOf 4#8 (w 4) (w 0) (w 8) = .fail .noInverse :=
  ⟨idle 7 103 120 [.host (.regWrite 4#3 (w 1)), .host (.regWrite 0#3 (w 9)), .host (.regRead 3#3), .complete],
    [.regWrite 0#3 (w 9), .regRead 3#3], by decide⟩

end Sys2Proof.Tests
end

section
/-! PROOFS. Scope (00_scope.md): a command's outcome is a function of the opcode and of the operands (R9). -/

namespace Sys2Proof.Proofs

open Sys2Proof.Machine Sys2Proof.Laws

/-- While busy, a step on the engine's turn is the completion of R68's outcome, with the turn used up. -/
theorem step_engine_busy {s : State} (hturn : engineNext s = true) (hbusy : s.status.busy = true) :
    step s = .next (complete (outcomeOf s.opc s.A s.B s.M) { s with events := s.events.tail }) := by
  rw [step_engine hturn]
  exact engineTurn_busy hbusy

/-- What a completion writes to `R` does not depend on the state it starts from (R69, R70). -/
theorem complete_R_eq_of_outcome (o : CmdOutcome) (s s' : State) : (complete o s).R = (complete o s').R := by
  cases o <;> rfl

/-- What a completion writes to `STATUS` does not depend on the state it starts from (R69, R70). -/
theorem complete_status_eq_of_outcome (o : CmdOutcome) (s s' : State) :
    (complete o s).status = (complete o s').status := by
  cases o <;> rfl

/-- Settles O28: both steps complete the same outcome, and a completion's `R` and `STATUS` come from the outcome alone. -/
theorem outcomeIsAFunctionOfOpcodeAndOperands : Obligations.OutcomeIsAFunctionOfOpcodeAndOperands := by
  intro s s' hbusy hbusy' hturn hturn' hopc hA hB hM
  have hout : outcomeOf s.opc s.A s.B s.M = outcomeOf s'.opc s'.A s'.B s'.M := by rw [hopc, hA, hB, hM]
  refine ⟨_, _, step_engine_busy hturn hbusy, step_engine_busy hturn' hbusy', ?_, ?_⟩
  · rw [hout]
    exact complete_R_eq_of_outcome _ _ _
  · rw [hout]
    exact complete_status_eq_of_outcome _ _ _

end Sys2Proof.Proofs
end

section
/-! PROOFS. Architectural state (10_state.md): when `BUSY` rises and falls (R14), the layout of the status word (R13) and the
pins that mirror it (R21), and the values after reset (R22). -/

namespace Sys2Proof.Proofs

open Sys2Proof.Machine Sys2Proof.Laws

/-! ### `BUSY` (R14) -/

/-- On the host's turn it is not the engine's. -/
theorem engineNext_of_hostNext {s : State} {tr : Transaction} {rest : List Event} (h : HostNext tr rest s) :
    engineNext s = false :=
  Bool.eq_false_iff.mpr fun hturn => not_hostNext_of_engineNext hturn tr rest h

/-- Of the writes while idle, only one to `CMD` raises `BUSY` (R36 to R40, R66). -/
theorem regWriteIdle_busy_iff {s : State} (hidle : s.status.busy = false) (idx : BitVec 3) (v : Word) :
    (regWriteIdle idx v s).status.busy = true ↔ idx = 4#3 := by
  rcases regWriteIdle_cases idx v s with
    ⟨rfl, h⟩ | ⟨rfl, h⟩ | ⟨rfl, h⟩ | ⟨rfl, h⟩ | ⟨rfl, h⟩ | ⟨rfl | rfl | rfl, h⟩ <;> simp [h, hidle]

/-- While idle, the one transaction that raises `BUSY` is a write to `CMD`. -/
theorem transact_idle_busy_iff {s : State} (hidle : s.status.busy = false) (tr : Transaction) :
    (transact tr s).status.busy = true ↔ ∃ v, tr = .regWrite 4#3 v := by
  cases tr with
  | regRead idx => simp [transact, regRead, hidle]
  | regWrite idx v => simp [transact, regWrite_idle hidle, regWriteIdle_busy_iff hidle]
  | reset => simp [transact]

/-- While busy, the one transaction that lowers `BUSY` is a reset. -/
theorem transact_busy_idle_iff {s : State} (hbusy : s.status.busy = true) (tr : Transaction) :
    (transact tr s).status.busy = false ↔ tr = .reset := by
  by_cases hreset : tr = .reset
  · simp [hreset, transact]
  · obtain ⟨ret, n, heq⟩ := transact_busy hbusy hreset
    simp [heq, hbusy, hreset]

/-- Settles O41: on the engine's turn `BUSY` is 0 afterwards, and on the host's turn the transaction alone decides. -/
theorem busyRisesAtAcceptanceAndFallsAtCompletionOrReset :
    Obligations.BusyRisesAtAcceptanceAndFallsAtCompletionOrReset := by
  intro s
  rcases engine_or_host s with hturn | ⟨tr, rest, hnext⟩
  · have hno := not_hostNext_of_engineNext hturn
    cases hb : s.status.busy with
    | false => exact ⟨_, (step_engine hturn).trans (engineTurn_idle hb), by simp [hb, hno], by simp, by simp⟩
    | true => exact ⟨_, step_engine_busy hturn hb, by simp, by simp [hturn], by simp [hno]⟩
  · have hevents : s.events = .host tr :: rest := hnext
    refine ⟨_, step_host hnext, fun hidle => ?_, fun hbusy => ?_, fun hbusy idx v rest' hwrite => ?_⟩
    · rw [transact_idle_busy_iff (by exact hidle)]
      simp [hevents]
    · rw [transact_busy_idle_iff (by exact hbusy)]
      simp [hevents, engineNext_of_hostNext hnext]
    · obtain ⟨rfl, rfl⟩ : tr = .regWrite idx v ∧ rest = rest' := by simpa [hevents] using hwrite
      exact regWrite_busy (by exact hbusy) idx v

/-! ### The status word (R13) and its pins (R21) -/

/-- The layout of the status word (R13): the fields from bit 0 up, each append read as a shift by the width below it. -/
theorem word_getLsbD (st : Status) (i : Nat) :
    st.word.getLsbD i =
      if i = 0 then st.busy else if i = 1 then st.done else if i = 2 then st.err
      else if i = 3 then false else st.ecode.getLsbD (i - 4) := by
  change (st.ecode ++ 0#1 ++ BitVec.ofBool st.err ++ BitVec.ofBool st.done ++ BitVec.ofBool st.busy :
    BitVec (4 + 1 + 1 + 1 + 1)).getLsbD i = _
  simp only [BitVec.getLsbD_append]
  rcases i with _ | _ | _ | _ | i <;> simp

/-- Bits 7:4 of the status word are `ECODE` (R13). -/
theorem word_ecode_bits (st : Status) : st.word.extractLsb' 4 4 = st.ecode := by
  ext i hi
  have hbit : st.word.getLsbD (4 + i) = st.ecode.getLsbD i := by simp [word_getLsbD, Nat.add_comm 4 i]
  simpa [hi] using hbit

@[simp] theorem pinsOut_busy (p : PinsIn) (s : State) : (pinsOut p s).busy = s.status.busy := rfl
@[simp] theorem pinsOut_done (p : PinsIn) (s : State) : (pinsOut p s).done = s.status.done := rfl
@[simp] theorem pinsOut_err (p : PinsIn) (s : State) : (pinsOut p s).err = s.status.err := rfl

/-- Settles O12: the bits of the status word are its fields, and the pins show the same fields. -/
theorem statusWordHoldsItsFieldsAndThePinsMirrorIt : Obligations.StatusWordHoldsItsFieldsAndThePinsMirrorIt := by
  intro s p
  have hbusy : s.status.word.getLsbD 0 = s.status.busy := word_getLsbD s.status 0
  have hdone : s.status.word.getLsbD 1 = s.status.done := word_getLsbD s.status 1
  have herr : s.status.word.getLsbD 2 = s.status.err := word_getLsbD s.status 2
  exact ⟨hbusy, hdone, herr, word_getLsbD s.status 3, word_ecode_bits s.status, hbusy.symm, hdone.symm, herr.symm⟩

/-! ### Reset (R22) -/

@[simp] theorem afterReset_word : Status.afterReset.word = 0x00#8 := by decide

/-- A `Reset` leaves the reset state as it is, so `State.reset` holds the values that `Reset` writes. -/
theorem resetBlock_reset : resetBlock State.reset = State.reset := rfl

/-- A step on which the host resets the block. -/
theorem step_reset (s : State) (rest : List Event) :
    step { s with events := .host .reset :: rest } = .next (resetBlock { s with events := rest }) :=
  step_host (t := .reset) (rest := rest) rfl

/-- Settles O13: both the reset state and the state after a `Reset` hold the values that `resetBlock` writes. -/
theorem resetPutsEveryRegisterToZero : Obligations.ResetPutsEveryRegisterToZero := by
  refine ⟨?_, fun s p rest => ⟨_, step_reset s rest, ?_⟩⟩
  · rw [← resetBlock_reset]
    simp
  · simp

end Sys2Proof.Proofs
end

section
/-! PROOFS. The register port (20_memory.md): what reads return and leave alone (R33 to R35), what writes do (R36, R37,
R39, R40), and the transactions that one clock edge carries (R48). -/

namespace Sys2Proof.Proofs

open Sys2Proof.Machine Sys2Proof.Laws

/-! ### The value a read gives and the state after it -/

/-- Index 3 alone names `R` (R31). -/
theorem portReg_eq_R_iff (idx : BitVec 3) : portReg idx = .R ↔ idx = 3#3 := by
  revert idx
  decide

/-- A read can change nothing but the count of free values. -/
theorem afterRead_eq (idx : BitVec 3) (s : State) : afterRead idx s = { s with draws := (afterRead idx s).draws } := by
  unfold afterRead
  cases portReg idx with
  | R => cases s.status.busy <;> rfl
  | A | B | M | CMD | STATUS | reserved => rfl

/-- A read at an index other than 3 draws no free value. -/
theorem afterRead_of_ne_three {idx : BitVec 3} (h : idx ≠ 3#3) (s : State) : afterRead idx s = s := by
  have hR : portReg idx ≠ .R := mt (portReg_eq_R_iff idx).mp h
  unfold afterRead
  split
  case h_7 heq => exact absurd heq hR
  all_goals rfl

/-- What a read of `R` gives (R34). -/
theorem readValue_three (s : State) :
    readValue 3#3 s = if s.status.busy then Config.unspecifiedWord s.draws else s.R := rfl

/-- A read of `R` uses up a free value exactly while busy. -/
theorem afterRead_three_draws (s : State) :
    (afterRead 3#3 s).draws = if s.status.busy then s.draws + 1 else s.draws := by
  change (if s.status.busy then (draw s).2 else s).draws = _
  split <;> rfl

/-- A read does not look at the events to come. -/
theorem afterRead_with_events (idx : BitVec 3) (s : State) (evs : List Event) :
    afterRead idx { s with events := evs } = { afterRead idx s with events := evs } := by
  unfold afterRead
  cases portReg idx with
  | R => cases s.status.busy <;> rfl
  | A | B | M | CMD | STATUS | reserved => rfl

/-! ### Transactions of the host as steps -/

/-- A read, as a transaction: its value goes to the host's record, and only the count of free values may advance. -/
theorem transact_regRead (idx : BitVec 3) (s : State) :
    transact (.regRead idx) s =
      { s with returned := s.returned ++ [readValue idx s], draws := (afterRead idx s).draws } := by
  rw [transact, regRead, deliver, afterRead_eq]

/-- A transaction does not look at the events to come. -/
theorem transact_with_events (t : Transaction) (s : State) (evs : List Event) :
    transact t { s with events := evs } = { transact t s with events := evs } := by
  cases t with
  | regRead idx =>
    simp only [transact, regRead, deliver, afterRead_with_events]
    rfl
  | regWrite idx v =>
    simp only [transact, regWrite, regWriteIdle]
    cases s.status.busy with
    | true => rfl
    | false => cases portReg idx <;> rfl
  | reset => rfl

/-- A step on which the host takes a transaction. -/
theorem step_transact (t : Transaction) (s : State) (rest : List Event) :
    step { s with events := .host t :: rest } = .next { transact t s with events := rest } := by
  rw [← transact_with_events]
  exact step_host (t := t) (rest := rest) rfl

/-! ### Reads (R33 to R35) -/

/-- A step on which the host reads. -/
theorem step_read (s : State) (rest : List Event) (idx : BitVec 3) :
    step { s with events := .host (.regRead idx) :: rest } =
      .next { s with
        events := rest
        returned := s.returned ++ [readValue idx s]
        draws := (afterRead idx s).draws } := by
  rw [step_transact, transact_regRead]

/-- Settles O4: the value a read delivers is the register's, and at an index other than 3 no free value is drawn. -/
theorem readReturnsTheRegisterAndChangesNothing : Obligations.ReadReturnsTheRegisterAndChangesNothing := by
  intro s rest
  refine ⟨step_read s rest 0#3, step_read s rest 1#3, step_read s rest 2#3,
    ⟨zextByte s.status.word, word_toNat s.status, step_read s rest 5#3⟩, fun idx => ?_⟩
  exact ⟨_, _, step_read s rest idx, fun hidx => by rw [afterRead_of_ne_three hidx]⟩

/-- Settles O5: `BUSY` decides whether a read of `R` gives `R` or draws a free value. -/
theorem readOfResultIsUnspecifiedWhileBusy : Obligations.ReadOfResultIsUnspecifiedWhileBusy := by
  intro s rest
  have hread := step_read s rest 3#3
  rw [readValue_three, afterRead_three_draws] at hread
  exact ⟨fun hidle => by simpa [hidle] using hread, fun hbusy => by simpa [hbusy] using hread⟩

/-- Settles O6: at these indices a read delivers the word 0 and draws no free value. -/
theorem readOfTriggerAndReservedIndicesIsZero : Obligations.ReadOfTriggerAndReservedIndicesIsZero := by
  intro s rest idx hidx
  refine ⟨Word.zero, Word.toNat_zero, ?_⟩
  rcases hidx with rfl | rfl | rfl
  · exact step_read s rest 4#3
  · exact step_read s rest 6#3
  · exact step_read s rest 7#3

/-! ### Writes (R36, R37, R39, R40) -/

/-- A step on which the host writes. -/
theorem step_write (s : State) (rest : List Event) (idx : BitVec 3) (v : Word) :
    step { s with events := .host (.regWrite idx v) :: rest } = .next { regWrite idx v s with events := rest } :=
  step_transact (.regWrite idx v) s rest

/-- A write at an index that holds nothing writable does nothing, idle or busy (R40). -/
theorem regWrite_ignored {idx : BitVec 3} (h : idx = 3#3 ∨ idx = 6#3 ∨ idx = 7#3) (v : Word) (s : State) :
    regWrite idx v s = s := by
  cases hb : s.status.busy with
  | true => exact regWrite_busy hb idx v
  | false =>
    rw [regWrite_idle hb]
    rcases h with rfl | rfl | rfl <;> rfl

/-- An acknowledgement with bit 1 set clears `DONE`. -/
theorem acknowledge_of_bit {v : Word} (h : v.getLsbD 1 = true) (s : State) :
    acknowledge v s = { s with status := { s.status with done := false } } := by
  rw [acknowledge, Status.acknowledge, if_pos h]

/-- A write to `STATUS` with bit 1 clear does nothing. -/
theorem acknowledge_of_not_bit {v : Word} (h : v.getLsbD 1 = false) (s : State) : acknowledge v s = s := by
  rw [acknowledge, Status.acknowledge, if_neg (by simp [h])]

/-- Settles O7: while idle, a write at each of the three indices is the update of its register. -/
theorem operandWriteWhileIdleStoresTheWord : Obligations.OperandWriteWhileIdleStoresTheWord := by
  intro s v rest hidle
  simp [step_write, regWrite_idle hidle]

/-- Settles O8: the write is a step of the host that leaves the state as it was. -/
theorem everyWriteWhileBusyIsIgnored : Obligations.EveryWriteWhileBusyIsIgnored := by
  intro s idx v rest hbusy
  rw [step_write, regWrite_busy hbusy]

/-- Settles O10: `v / 2 % 2` is the bit of `v` that the acknowledgement looks at. -/
theorem statusWriteClearsDoneAndNothingElse : Obligations.StatusWriteClearsDoneAndNothingElse := by
  intro s v rest hidle
  rw [step_write, regWrite_idle hidle, regWriteIdle_STATUS]
  refine ⟨fun hset => ?_, fun hclear => ?_⟩
  · rw [acknowledge_of_bit (by simp [getLsbD_one_eq, hset])]
  · rw [acknowledge_of_not_bit (by simp [getLsbD_one_eq, hclear])]

/-- Settles O11: idle or busy, the write leaves the state as it was. -/
theorem writeToResultOrReservedIndexIsIgnored : Obligations.WriteToResultOrReservedIndexIsIgnored := by
  intro s idx v rest hidx
  rw [step_write, regWrite_ignored hidx]

/-! ### Runs through given events -/

/-- A completion does not look at the events to come. -/
theorem complete_with_events (o : CmdOutcome) (s : State) (evs : List Event) :
    complete o { s with events := evs } = { complete o s with events := evs } := by
  cases o <;> rfl

/-- The run of the machine through the events `evs`, put before those of `s`: a step for each. -/
def runEvents (evs : List Event) (s : State) : Host.Outcome State Fault Refusal :=
  runs evs.length { s with events := evs ++ s.events }

@[simp] theorem runEvents_nil (s : State) : runEvents [] s = .next s := rfl

/-- A host transaction, then the events after it. -/
@[simp] theorem runEvents_host (t : Transaction) (evs : List Event) (s : State) :
    runEvents (.host t :: evs) s = runEvents evs (transact t s) := by
  rw [runEvents, runEvents, transact_events]
  exact runs_succ (step_transact t s (evs ++ s.events)) evs.length

/-- The engine's completion while busy, then the events after it. -/
theorem runEvents_complete {s : State} (hbusy : s.status.busy = true) (evs : List Event) :
    runEvents (.complete :: evs) s = runEvents evs (complete (outcomeOf s.opc s.A s.B s.M) s) := by
  have hstep : step { s with events := .complete :: (evs ++ s.events) } =
      .next { complete (outcomeOf s.opc s.A s.B s.M) s with events := evs ++ s.events } := by
    rw [step_engine_busy rfl (by exact hbusy), ← complete_with_events]
    rfl
  rw [runEvents, runEvents, complete_events]
  exact runs_succ hstep evs.length

/-! ### The clock edge (R48) -/

/-- A cycle that writes does not read. -/
theorem reads_of_writes {p : PinsIn} (h : p.writes = true) : p.reads = false := by
  rw [PinsIn.writes, Bool.and_eq_true] at h
  simp [PinsIn.reads, h]

/-- What a cycle delivers to the host is what stands on `rdata`. -/
theorem sampleRead_returned (p : PinsIn) (s : State) :
    (sampleRead p s).returned = if p.reads then s.returned ++ [(pinsOut p s).rdata] else s.returned := by
  cases hr : p.reads <;> simp [sampleRead, pinsOut, regRead, hr]

/-- A write while idle delivers nothing to the host. -/
theorem regWriteIdle_returned (idx : BitVec 3) (v : Word) (s : State) :
    (regWriteIdle idx v s).returned = s.returned := by
  unfold regWriteIdle
  cases portReg idx <;> rfl

/-- A reset cycle is the read, if there is one, and then `Reset`. -/
theorem runEvents_edgeEvents_reset {p : PinsIn} (hrst : p.rst = true) (completes : Bool) (s : State) :
    runEvents (edgeEvents p completes) s = .next (resetBlock (sampleRead p s)) := by
  cases hr : p.reads <;> simp [edgeEvents, sampleRead, transact, hrst, hr]

/-- While busy the host's access is at most a read, since a write is ignored; a completion comes after it. -/
theorem runEvents_edgeEvents_busy {p : PinsIn} {s : State} (hrst : p.rst = false) (hbusy : s.status.busy = true)
    (completes : Bool) :
    runEvents (edgeEvents p completes) s = runEvents (if completes then [.complete] else []) (sampleRead p s) := by
  cases hr : p.reads with
  | true => simp [edgeEvents, sampleRead, transact, hrst, hr]
  | false => cases hw : p.writes <;> simp [edgeEvents, sampleRead, transact, regWrite_busy hbusy, hrst, hr, hw]

/-- While idle an edge without reset carries the host's access alone. -/
theorem runEvents_edgeEvents_idle {p : PinsIn} {s : State} (hrst : p.rst = false) (hidle : s.status.busy = false) :
    runEvents (edgeEvents p false) s =
      .next (if p.writes then regWriteIdle p.addr p.wdata s else sampleRead p s) := by
  cases hw : p.writes with
  | true => simp [edgeEvents, transact, regWrite_idle hidle, hrst, hw, reads_of_writes hw]
  | false => cases hr : p.reads <;> simp [edgeEvents, sampleRead, transact, hrst, hr, hw]

/-- The completion at an edge is that of the state before the edge: a read in that cycle changes nothing it uses. -/
theorem runEvents_complete_sampleRead {s : State} (hbusy : s.status.busy = true) (p : PinsIn) :
    runEvents [.complete] (sampleRead p s) =
      .next (complete (outcomeOf s.opc s.A s.B s.M) (sampleRead p s)) := by
  obtain ⟨ret, n, hs⟩ := sampleRead_eq p s
  rw [hs, runEvents_complete (by exact hbusy), runEvents_nil]

/-- One edge and the events it stands for end in the same state, and the value read is the one on `rdata`. -/
theorem edge_eq_runEvents (p : PinsIn) (completes : Bool) (s : State) :
    ∃ t, edge p completes s = .next t ∧ runEvents (edgeEvents p (completes && s.status.busy)) s = .next t ∧
      t.returned = if p.reads then s.returned ++ [(pinsOut p s).rdata] else s.returned := by
  cases hrst : p.rst with
  | true => exact ⟨_, edge_reset hrst _ s, runEvents_edgeEvents_reset hrst _ s, sampleRead_returned p s⟩
  | false =>
    cases hb : s.status.busy with
    | false =>
      rw [Bool.and_false]
      refine ⟨_, edge_idle hrst hb completes, runEvents_edgeEvents_idle hrst hb, ?_⟩
      cases hw : p.writes with
      | true => simp [regWriteIdle_returned, reads_of_writes hw]
      | false => simp [sampleRead_returned]
    | true =>
      rw [Bool.and_true, runEvents_edgeEvents_busy hrst hb]
      cases completes with
      | true =>
        refine ⟨_, edge_completes hrst hb, runEvents_complete_sampleRead hb p, ?_⟩
        rw [complete_returned, sampleRead_returned]
      | false => exact ⟨_, edge_busy hrst hb, rfl, sampleRead_returned p s⟩

/-- Settles O16: the edge and the run through its events end in one state. -/
theorem clockEdgeIsHostAccessThenCompletion : Obligations.ClockEdgeIsHostAccessThenCompletion := by
  intro p completes s
  obtain ⟨t, hedge, hrun, hreturned⟩ := edge_eq_runEvents p completes s
  exact ⟨hrun.trans hedge.symm, t, hedge, hreturned⟩

end Sys2Proof.Proofs
end

section
/-! PROOFS. The encoding (30_encoding.md): which bytes are commands, and what an illegal byte does (R54); the lines of the
host notation and the pins that carry them (R57). -/

namespace Sys2Proof.Proofs

open Sys2Proof.Machine Sys2Proof.Laws

/-! ### Legal and illegal bytes (R51, R53, R54) -/

/-- The two fields of a command byte are its high and its low hexadecimal digit (R51). -/
theorem byte_toNat_eq_fields (c : BitVec 8) :
    c.toNat = 16 * (FormatC.ofByte c).zero.toNat + (FormatC.ofByte c).op.toNat := by
  have hzero : (FormatC.ofByte c).zero.toNat = c.toNat / 16 % 16 := by
    simp [FormatC.ofByte, Nat.shiftRight_eq_div_pow]
  have hop : (FormatC.ofByte c).op.toNat = c.toNat % 16 := by simp [FormatC.ofByte]
  omega

/-- The opcode map assigns the opcodes 1 to 5 (R53). -/
theorem exists_commandOfOp_iff (op : BitVec 4) :
    (∃ i, commandOfOp op = some i) ↔ 1 ≤ op.toNat ∧ op.toNat ≤ 5 := by
  rw [← Option.isSome_iff_exists]
  revert op
  decide

/-- A byte is the command `i` exactly if its field `zero` is 0 and its opcode is that of `i`. -/
theorem decode_eq_command_iff (c : BitVec 8) (i : Instr) :
    decode c = .command i ↔ (FormatC.ofByte c).zero = 0#4 ∧ commandOfOp (FormatC.ofByte c).op = some i := by
  unfold decode
  split
  case isFalse hzero => simp [hzero]
  case isTrue hzero => cases commandOfOp (FormatC.ofByte c).op <;> simp [hzero]

/-- The legal bytes are 1 to 5 (R54). -/
theorem exists_decode_eq_command_iff (c : BitVec 8) :
    (∃ i, decode c = .command i) ↔ 1 ≤ c.toNat ∧ c.toNat ≤ 5 := by
  have hfields := byte_toNat_eq_fields c
  have hzero : (FormatC.ofByte c).zero = 0#4 ↔ (FormatC.ofByte c).zero.toNat = 0 := BitVec.toNat_inj.symm
  simp only [decode_eq_command_iff, exists_and_left, exists_commandOfOp_iff, hzero]
  omega

/-- A byte is illegal exactly if it is no command. -/
theorem exists_decode_eq_illegal_iff (c : BitVec 8) :
    (∃ why, decode c = .illegal why) ↔ ¬∃ i, decode c = .command i := by
  cases decode c <;> simp

/-- A command with an illegal byte fails with `ILLEGAL_CMD`, whatever its operands (R68). -/
theorem outcomeOf_of_illegal {c : BitVec 8} {why : IllegalByte} (h : decode c = .illegal why) (a b m : Word) :
    outcomeOf c a b m = .fail .illegalCmd := by
  rw [outcomeOf, h]

/-- A write to `CMD` while idle is the acceptance of the byte in the low 8 bits of its data, whatever the byte (R66). -/
theorem step_write_CMD_idle {s : State} (hidle : s.status.busy = false) (v : Word) (rest : List Event) :
    step { s with events := .host (.regWrite 4#3 v) :: rest } = .next (accept v { s with events := rest }) := by
  rw [step_write_idle (by exact hidle) rfl, regWriteIdle_CMD]

/-- Settles O3: acceptance looks at no byte, and the outcome of an illegal byte is an error completion with code 3. -/
theorem illegalBytesAreAcceptedAndEndWithCodeThree : Obligations.IllegalBytesAreAcceptedAndEndWithCodeThree := by
  intro c
  have hillegal : (∃ why, decode c = .illegal why) ↔ ¬(1 ≤ c.toNat ∧ c.toNat ≤ 5) :=
    (exists_decode_eq_illegal_iff c).trans (not_congr (exists_decode_eq_command_iff c))
  refine ⟨exists_decode_eq_command_iff c, hillegal, fun hrange => ⟨?_, ?_⟩⟩
  · intro s v rest hidle hv
    have hlatched : lowByte v = c := by rw [lowByte_eq, hv, BitVec.ofNat_toNat, BitVec.setWidth_eq]
    exact ⟨_, step_write_CMD_idle hidle v rest, accepted_busy, hlatched⟩
  · intro s hbusy hturn hopc
    obtain ⟨why, hdecode⟩ := hillegal.mpr hrange
    rw [step_engine_busy hturn hbusy, hopc, outcomeOf_of_illegal hdecode]
    rfl

/-! ### The host notation (R57) -/

/-- The line of a command writes its command byte to `CMD` (R57). -/
theorem transaction_command {i : Instr} {n : Nat} (hbyte : (encode i).toNat = n) :
    ∃ v : Word, v.toNat = n ∧ (Line.command i).transaction = .regWrite 4#3 v :=
  ⟨zextByte (encode i), hbyte, rfl⟩

/-- `ACK` writes the bit of `DONE` to `STATUS` (R57). -/
theorem transaction_ack : ∃ v : Word, v.toNat = 0x02 ∧ Line.ack.transaction = .regWrite 5#3 v :=
  ⟨zextByte 0x02#8, rfl, rfl⟩

/-- Settles O18: the five command lines by their command bytes, every other line and the pins by their tables. -/
theorem hostNotationLinesAreTheirTransactions : Obligations.HostNotationLinesAreTheirTransactions := by
  have hindices : RegName.A.idx = 0#3 ∧ RegName.B.idx = 1#3 ∧ RegName.M.idx = 2#3 ∧ RegName.R.idx = 3#3 ∧
      RegName.CMD.idx = 4#3 ∧ RegName.STATUS.idx = 5#3 := by decide
  refine ⟨hindices, fun r v => ⟨rfl, rfl⟩, fun v => rfl, transaction_command (by decide),
    transaction_command (by decide), transaction_command (by decide), transaction_command (by decide),
    transaction_command (by decide), transaction_ack, rfl, rfl, fun idx v => ⟨?write, ?read⟩⟩
  case write => exact ⟨rfl, rfl, rfl, rfl, rfl⟩
  case read => exact ⟨rfl, rfl, rfl, rfl⟩

end Sys2Proof.Proofs
end

section
/-! PROOFS. Command execution (40_command_execution.md): acceptance (R66), the table of `Complete` (R68), and what a
completion writes (R69, R70). -/

namespace Sys2Proof.Proofs

open Sys2Proof.Machine Sys2Proof.Laws

/-! ### The table of `Complete` (R68) -/

/-- A byte that decodes to MODMUL has MODMUL's outcome (R68). -/
theorem outcomeOf_of_modmul {c : BitVec 8} (h : decode c = .command .modmul) (a b m : Word) :
    outcomeOf c a b m = modmulOutcome a b m := by
  rw [outcomeOf, h]

/-- A byte that decodes to MODEXP has MODEXP's outcome (R68). -/
theorem outcomeOf_of_modexp {c : BitVec 8} (h : decode c = .command .modexp) (a b m : Word) :
    outcomeOf c a b m = modexpOutcome a b m := by
  rw [outcomeOf, h]

/-- A byte that decodes to GCD has GCD's outcome, which ignores the third operand (R68). -/
theorem outcomeOf_of_gcd {c : BitVec 8} (h : decode c = .command .gcd) (a b m : Word) :
    outcomeOf c a b m = gcdOutcome a b := by
  rw [outcomeOf, h]

/-- A byte that decodes to MODINV has MODINV's outcome, which ignores the second operand (R68). -/
theorem outcomeOf_of_modinv {c : BitVec 8} (h : decode c = .command .modinv) (a b m : Word) :
    outcomeOf c a b m = modinvOutcome a m := by
  rw [outcomeOf, h]

/-- A byte that decodes to ISPRIME has ISPRIME's outcome, which looks at the first operand alone (R68). -/
theorem outcomeOf_of_isprime {c : BitVec 8} (h : decode c = .command .isprime) (a b m : Word) :
    outcomeOf c a b m = isprimeOutcome a := by
  rw [outcomeOf, h]

/-- While busy, a step on the engine's turn completes whatever the outcome of the latched byte is known to be. -/
theorem step_engine_of_outcome {s : State} {o : CmdOutcome} (hturn : engineNext s = true) (hbusy : s.status.busy = true)
    (hout : outcomeOf s.opc s.A s.B s.M = o) : step s = .next (complete o { s with events := s.events.tail }) := by
  rw [← hout]
  exact step_engine_busy hturn hbusy

/-- Settles O34: the engine's step completes the outcome of the latched byte, which each line of R68's table names. -/
theorem completeAppliesTheOutcomeOfTheLatchedByte : Obligations.CompleteAppliesTheOutcomeOfTheLatchedByte := by
  intro s hbusy hturn
  refine ⟨fun h => ?modmul, fun h => ?modexp, fun h => ?gcd, fun h => ?modinv, fun h => ?isprime,
    fun why h => ?illegal, step_engine_busy hturn hbusy⟩
  case modmul => exact step_engine_of_outcome hturn hbusy (outcomeOf_of_modmul h _ _ _)
  case modexp => exact step_engine_of_outcome hturn hbusy (outcomeOf_of_modexp h _ _ _)
  case gcd => exact step_engine_of_outcome hturn hbusy (outcomeOf_of_gcd h _ _ _)
  case modinv => exact step_engine_of_outcome hturn hbusy (outcomeOf_of_modinv h _ _ _)
  case isprime => exact step_engine_of_outcome hturn hbusy (outcomeOf_of_isprime h _ _ _)
  case illegal => exact step_engine_of_outcome hturn hbusy (outcomeOf_of_illegal h _ _ _)

/-! ### Acceptance (R66) -/

/-- What acceptance writes, with the latched byte as a number (R66). -/
theorem accept_eq (v : Word) (s : State) :
    accept v s =
      { s with
        opc := BitVec.ofNat 8 (v.toNat % 256)
        status := Status.accepted
        R := Config.unspecifiedWord s.draws
        draws := s.draws + 1 } := by
  rw [← lowByte_eq]
  rfl

/-- Settles O9: while idle the write is an acceptance, and while busy it is ignored as every write is. -/
theorem commandWriteWhileIdleIsAcceptance : Obligations.CommandWriteWhileIdleIsAcceptance := by
  intro s v rest
  refine ⟨fun hidle => ?_, everyWriteWhileBusyIsIgnored s 4#3 v rest⟩
  rw [step_write_CMD_idle hidle, accept_eq]
  rfl

/-! ### What a completion writes (R69, R70) -/

/-- The status word after a normal completion (R69). -/
@[simp] theorem completedOk_word : Status.completedOk.word = 0x02#8 := by decide

/-- The status word after an error completion: the code in bits 7:4, with `ERR` and `DONE` (R70). -/
theorem completedErr_word_toNat (e : ErrorCause) :
    (Status.completedErr e).word.toNat = e.code.toNat * 16 + 0x06 := by
  simp only [word_toNat, completedErr_busy, completedErr_done, completedErr_err, completedErr_ecode, Bool.toNat_false,
    Bool.toNat_true]
  omega

/-- No error cause has the code 0, which stands for no error (R110). -/
theorem one_le_code (e : ErrorCause) : 1 ≤ e.code.toNat :=
  Nat.one_le_iff_ne_zero.mpr fun h => code_ne_zero e (BitVec.eq_of_toNat_eq h)

/-- Settles O31: a completion is its update of `R` and `STATUS`, and the word of each status is known by its code. -/
theorem completionWritesResultAndStatus : Obligations.CompletionWritesResultAndStatus := by
  intro s
  refine ⟨fun v => ⟨_, rfl, rfl, completedOk_word⟩,
    fun e => ⟨_, rfl, rfl, one_le_code e, code_le_three e, completedErr_word_toNat e⟩, ?noInverse, ?zeroModulus,
    ?illegalCmd⟩
  case noInverse => exact BitVec.eq_of_toNat_eq (completedErr_word_toNat .noInverse)
  case zeroModulus => exact BitVec.eq_of_toNat_eq (completedErr_word_toNat .zeroModulus)
  case illegalCmd => exact BitVec.eq_of_toNat_eq (completedErr_word_toNat .illegalCmd)

end Sys2Proof.Proofs
end

section
/-! PROOFS. MODMUL (41_modmul.md): its two outcomes, and the completion it answers (R80). -/

namespace Sys2Proof.Proofs

open Sys2Proof.Machine Sys2Proof.Laws

/-- A zero modulus fails with `ZERO_MODULUS`, whatever the factors (R80). -/
theorem modmulOutcome_of_modulus_zero {m : Word} (h : m.toNat = 0) (a b : Word) :
    modmulOutcome a b m = .fail .zeroModulus := by
  rw [modmulOutcome, dif_pos h]

/-- For a nonzero modulus the result is the remainder of the product over the natural numbers (R80). -/
theorem modmulOutcome_of_modulus_ne_zero {m : Word} (h : m.toNat ≠ 0) (a b : Word) :
    modmulOutcome a b m = .ok (Word.exact (a.toNat * b.toNat % m.toNat) (Word.mod_lt _ h)) := by
  rw [modmulOutcome, dif_neg h]

/-- Executing MODMUL completes its outcome on the three operand registers (R68, R80). -/
theorem exec_modmul (s : State) : exec .modmul s = .next (complete (modmulOutcome s.A s.B s.M) s) := rfl

/-- Settles O19: the modulus decides between the error completion and the completion with the remainder. -/
theorem modmulWritesTheExactProductModuloM : Obligations.ModmulWritesTheExactProductModuloM := by
  refine ⟨by decide, fun s => ⟨fun hzero => ?zeroModulus, fun hne => ?remainder⟩⟩
  case zeroModulus =>
    rw [exec_modmul, modmulOutcome_of_modulus_zero hzero]
    rfl
  case remainder =>
    refine ⟨_, Word.toNat_exact _ (Word.mod_lt _ hne), ?_⟩
    rw [exec_modmul, modmulOutcome_of_modulus_ne_zero hne]
    rfl

end Sys2Proof.Proofs
end

section
/-! PROOFS. MODEXP (42_modexp.md): its two outcomes, and the completion it answers (R85). -/

namespace Sys2Proof.Proofs

open Sys2Proof.Machine Sys2Proof.Laws

/-- A zero modulus fails with `ZERO_MODULUS`, whatever the base and the exponent (R85). -/
theorem modexpOutcome_of_modulus_zero {m : Word} (h : m.toNat = 0) (a b : Word) :
    modexpOutcome a b m = .fail .zeroModulus := by
  rw [modexpOutcome, dif_pos h]

/-- For a nonzero modulus the result is the remainder of the power over the natural numbers, which the block reaches by
square and multiply (R85). -/
theorem modexpOutcome_of_modulus_ne_zero {m : Word} (h : m.toNat ≠ 0) (a b : Word) :
    ∃ v : Word, v.toNat = a.toNat ^ b.toNat % m.toNat ∧ modexpOutcome a b m = .ok v := by
  have hm : 0 < m.toNat := Nat.pos_of_ne_zero h
  have hfits := Nat.lt_trans (powMod_lt a.toNat b.toNat hm) m.isLt
  refine ⟨Word.exact (powMod a.toNat b.toNat m.toNat) hfits, ?_, ?_⟩
  · rw [Word.toNat_exact, powMod_eq _ _ _ hm]
  · rw [modexpOutcome, dif_neg h]

/-- Executing MODEXP completes its outcome on the three operand registers (R68, R85). -/
theorem exec_modexp (s : State) : exec .modexp s = .next (complete (modexpOutcome s.A s.B s.M) s) := rfl

/-- Settles O20: the modulus decides between the error completion and the completion with the power's remainder. -/
theorem modexpWritesThePowerModuloM : Obligations.ModexpWritesThePowerModuloM := by
  refine ⟨by decide, fun s => ⟨fun hzero => ?zeroModulus, fun hne => ?remainder⟩⟩
  case zeroModulus =>
    rw [exec_modexp, modexpOutcome_of_modulus_zero hzero]
    rfl
  case remainder =>
    obtain ⟨v, hv, hout⟩ := modexpOutcome_of_modulus_ne_zero hne s.A s.B
    refine ⟨v, hv, ?_⟩
    rw [exec_modexp, hout]
    rfl

end Sys2Proof.Proofs
end

section
/-! PROOFS. GCD (43_gcd.md): its one outcome, and the completion it answers (R90). -/

namespace Sys2Proof.Proofs

open Sys2Proof.Machine Sys2Proof.Laws

/-- The result is the greatest common divisor, which the block reaches by Euclid's loop; there is no failure (R90). -/
theorem gcdOutcome_eq_ok (a b : Word) : ∃ v : Word, v.toNat = Nat.gcd a.toNat b.toNat ∧ gcdOutcome a b = .ok v := by
  have hfits := euclid_lt a.isLt b.isLt
  refine ⟨Word.exact (euclid a.toNat b.toNat) hfits, ?_, rfl⟩
  rw [Word.toNat_exact, euclid_eq_gcd]

/-- Executing GCD completes its outcome on `A` and `B`; `M` is ignored (R68, R90). -/
theorem exec_gcd (s : State) : exec .gcd s = .next (complete (gcdOutcome s.A s.B) s) := rfl

/-- Settles O21: the one outcome is the greatest common divisor, and a normal completion writes it. -/
theorem gcdWritesTheGreatestCommonDivisor : Obligations.GcdWritesTheGreatestCommonDivisor := by
  refine ⟨by decide, fun s => ?_⟩
  obtain ⟨v, hv, hout⟩ := gcdOutcome_eq_ok s.A s.B
  refine ⟨v, hv, ?_⟩
  rw [exec_gcd, hout]
  rfl

end Sys2Proof.Proofs
end

section
/-! PROOFS. MODINV (44_modinv.md): its two outcomes, and the completion it answers (R95). -/

namespace Sys2Proof.Proofs

open Sys2Proof.Machine Sys2Proof.Laws

/-- A zero modulus, and operands with a common divisor, fail with `NO_INVERSE` (R95). -/
theorem modinvOutcome_of_not_invertible {a m : Word} (h : m.toNat = 0 ∨ Nat.gcd a.toNat m.toNat ≠ 1) :
    modinvOutcome a m = .fail .noInverse := by
  unfold modinvOutcome
  split
  next => rfl
  next hm => rw [if_pos (euclid_eq_gcd a.toNat m.toNat ▸ h.resolve_left hm)]

/-- For a nonzero modulus coprime to the operand the result is an inverse in `[0, M)`, which the block reaches by the
extended Euclidean loop (R95). -/
theorem modinvOutcome_of_invertible {a m : Word} (hm : m.toNat ≠ 0) (hgcd : Nat.gcd a.toNat m.toNat = 1) :
    ∃ d : Word, d.toNat < m.toNat ∧ a.toNat * d.toNat % m.toNat = 1 % m.toNat ∧ modinvOutcome a m = .ok d := by
  have hpos : 0 < m.toNat := Nat.pos_of_ne_zero hm
  have hlt := modInverse_lt a.toNat hpos
  have hfits := Nat.lt_trans hlt m.isLt
  refine ⟨Word.exact (modInverse a.toNat m.toNat) hfits, ?_, ?_, ?_⟩
  · rwa [Word.toNat_exact]
  · rw [Word.toNat_exact]
    exact modInverse_spec _ _ hpos hgcd
  · rw [modinvOutcome, dif_neg hm, if_neg (by rw [euclid_eq_gcd]; exact not_not_intro hgcd)]

/-- Executing MODINV completes its outcome on `A` and `M`; `B` is ignored (R68, R95). -/
theorem exec_modinv (s : State) : exec .modinv s = .next (complete (modinvOutcome s.A s.M) s) := rfl

/-- Settles O23: invertibility decides between the error completion and the completion with the inverse, which is the
only one below the modulus because a factor coprime to it cancels. -/
theorem modinvWritesTheUniqueInverseOrFails : Obligations.ModinvWritesTheUniqueInverseOrFails := by
  refine ⟨by decide, fun s => ⟨fun hnot => ?noInverse, fun hne hgcd => ?inverse⟩⟩
  case noInverse =>
    rw [exec_modinv, modinvOutcome_of_not_invertible hnot]
    rfl
  case inverse =>
    obtain ⟨d, hlt, hinv, hout⟩ := modinvOutcome_of_invertible hne hgcd
    refine ⟨d, hlt, hinv, fun d' hlt' hinv' => inverse_unique hlt' hlt hgcd hinv' hinv, ?_⟩
    rw [exec_modinv, hout]
    rfl

end Sys2Proof.Proofs
end

section
/-! PROOFS. ISPRIME (45_isprime.md): its two outcomes, and the completion it answers (R100). -/

namespace Sys2Proof.Proofs

open Sys2Proof.Machine Sys2Proof.Laws

/-- A prime is at least 2 and survives the trial division, so its answer is 1 (R100). -/
theorem isprimeOutcome_of_prime {a : Word} (h : Nat.Prime a.toNat) : isprimeOutcome a = .ok Word.one := by
  have hsurvives : hasTrialDivisor a.toNat = false := (not_hasTrialDivisor_iff_prime _ h.two_le).mpr h
  rw [isprimeOutcome, if_neg (Nat.not_lt.mpr h.two_le), if_neg (Bool.eq_false_iff.mp hsurvives)]

/-- Any other operand is below 2 or fails the trial division, so its answer is 0 (R100). -/
theorem isprimeOutcome_of_not_prime {a : Word} (h : ¬ Nat.Prime a.toNat) : isprimeOutcome a = .ok Word.zero := by
  unfold isprimeOutcome
  split
  next => rfl
  next hge =>
    have hdivided : hasTrialDivisor a.toNat = true :=
      Bool.eq_true_of_not_eq_false (mt (not_hasTrialDivisor_iff_prime _ (Nat.not_lt.mp hge)).mp h)
    rw [if_pos hdivided]

/-- The rule's condition for the answer 0 is that the operand is not prime: the bound of the trial division is the
inclusive integer square root (R100). -/
theorem lt_two_or_divisor_le_sqrt_iff_not_prime (n : Nat) :
    (n < 2 ∨ ∃ i, 2 ≤ i ∧ i ≤ Nat.sqrt n ∧ n % i = 0) ↔ ¬ Nat.Prime n := by
  rw [Nat.prime_def_le_sqrt, not_and_or, Nat.not_le]
  simp only [Nat.dvd_iff_mod_eq_zero, not_forall, not_not, exists_prop]

/-- Executing ISPRIME completes its outcome on `A`; `B` and `M` are ignored (R68, R100). -/
theorem exec_isprime (s : State) : exec .isprime s = .next (complete (isprimeOutcome s.A) s) := rfl

/-- Settles O25: primality decides between the two answers, and the trial division of the rule decides primality. -/
theorem isprimeDecidesPrimality : Obligations.IsprimeDecidesPrimality := by
  refine ⟨by decide, fun s => ?_⟩
  rw [lt_two_or_divisor_le_sqrt_iff_not_prime]
  by_cases hprime : Nat.Prime s.A.toNat
  case pos =>
    refine ⟨Word.one, ?_, by simp [hprime]⟩
    rw [exec_isprime, isprimeOutcome_of_prime hprime]
    rfl
  case neg =>
    refine ⟨Word.zero, ?_, by simp [hprime]⟩
    rw [exec_isprime, isprimeOutcome_of_not_prime hprime]
    rfl

end Sys2Proof.Proofs
end

section
/-! PROOFS. Exceptions (60_exceptions.md): the causes of the error codes (R110), and the completion event (R116). -/

namespace Sys2Proof.Proofs

open Sys2Proof.Machine Sys2Proof.Laws

/-! ### What a transaction makes of `STATUS` (R33 to R40, R66, R130) -/

@[simp] theorem transact_regRead_status (idx : BitVec 3) (s : State) :
    (transact (.regRead idx) s).status = s.status := by
  rw [transact_regRead]

@[simp] theorem transact_reset_status (s : State) : (transact .reset s).status = Status.afterReset := rfl

/-- Of the writes, only those to `CMD` and `STATUS` touch `STATUS`, and only while idle. -/
theorem transact_regWrite_status (idx : BitVec 3) (v : Word) (s : State) :
    (transact (.regWrite idx v) s).status =
      if s.status.busy then s.status
      else if idx = 4#3 then Status.accepted
      else if idx = 5#3 then s.status.acknowledge v
      else s.status := by
  cases hb : s.status.busy with
  | true => rw [transact, regWrite_busy hb, if_pos rfl]
  | false =>
    rw [transact, regWrite_idle hb]
    rcases regWriteIdle_cases idx v s with
      ⟨rfl, h⟩ | ⟨rfl, h⟩ | ⟨rfl, h⟩ | ⟨rfl, h⟩ | ⟨rfl, h⟩ | ⟨rfl | rfl | rfl, h⟩ <;> simp [h]

/-- Everything a transaction can make of `STATUS`. -/
theorem transact_status_cases (tr : Transaction) (s : State) :
    (transact tr s).status = s.status ∨ (transact tr s).status = Status.accepted ∨
    (∃ v, (transact tr s).status = s.status.acknowledge v) ∨ (transact tr s).status = Status.afterReset := by
  cases tr with
  | regRead idx => simp
  | regWrite idx v =>
    rw [transact_regWrite_status]
    split_ifs
    · exact .inl rfl
    · exact .inr (.inl rfl)
    · exact .inr (.inr (.inl ⟨v, rfl⟩))
    · exact .inl rfl
  | reset => simp

/-- No transaction sets `DONE`, `ERR` or `ECODE`: only a completion does (R110, R116). -/
theorem transact_sets_no_flag (tr : Transaction) (s : State) :
    (s.status.done = false → (transact tr s).status.done = false) ∧
    (s.status.err = false → (transact tr s).status.err = false) ∧
    (s.status.ecode = 0#4 → (transact tr s).status.ecode = 0#4) := by
  rcases transact_status_cases tr s with h | h | ⟨v, h⟩ | h <;> simp +contextual [h]

/-! ### The cause of each error code (R110) -/

/-- Different causes have different codes. -/
theorem code_injective : Function.Injective ErrorCause.code := by
  intro e e' h
  cases e <;> cases e' <;> simp_all [ErrorCause.code]

/-- A completion leaves the code of a cause exactly if the command failed with that cause (R69, R70). -/
theorem complete_ecode_eq_code_iff (o : CmdOutcome) (e : ErrorCause) (s : State) :
    (complete o s).status.ecode = e.code ↔ o = .fail e := by
  cases o with
  | ok v => simp [complete, (code_ne_zero e).symm]
  | fail e' => simp [complete, code_injective.eq_iff]

/-- MODMUL's one failure (R80). -/
theorem modmulOutcome_eq_fail_iff (a b m : Word) (e : ErrorCause) :
    modmulOutcome a b m = .fail e ↔ e = .zeroModulus ∧ m.toNat = 0 := by
  by_cases hm : m.toNat = 0
  · simp [modmulOutcome_of_modulus_zero hm, hm, eq_comm]
  · simp [modmulOutcome_of_modulus_ne_zero hm, hm]

/-- MODEXP's one failure (R85). -/
theorem modexpOutcome_eq_fail_iff (a b m : Word) (e : ErrorCause) :
    modexpOutcome a b m = .fail e ↔ e = .zeroModulus ∧ m.toNat = 0 := by
  by_cases hm : m.toNat = 0
  · simp [modexpOutcome_of_modulus_zero hm, hm, eq_comm]
  · obtain ⟨v, -, hout⟩ := modexpOutcome_of_modulus_ne_zero hm a b
    simp [hout, hm]

/-- GCD never fails (R90). -/
theorem gcdOutcome_ne_fail (a b : Word) (e : ErrorCause) : gcdOutcome a b ≠ .fail e := by
  obtain ⟨v, -, hout⟩ := gcdOutcome_eq_ok a b
  simp [hout]

/-- MODINV's one failure (R95). -/
theorem modinvOutcome_eq_fail_iff (a m : Word) (e : ErrorCause) :
    modinvOutcome a m = .fail e ↔ e = .noInverse ∧ (m.toNat = 0 ∨ Nat.gcd a.toNat m.toNat ≠ 1) := by
  by_cases h : m.toNat = 0 ∨ Nat.gcd a.toNat m.toNat ≠ 1
  · simp [modinvOutcome_of_not_invertible h, h, eq_comm]
  · obtain ⟨hm, hgcd⟩ := not_or.mp h
    obtain ⟨d, -, -, hout⟩ := modinvOutcome_of_invertible hm (not_not.mp hgcd)
    simp [hout, h]

/-- ISPRIME never fails (R100). -/
theorem isprimeOutcome_ne_fail (a : Word) (e : ErrorCause) : isprimeOutcome a ≠ .fail e := by
  by_cases h : Nat.Prime a.toNat
  · simp [isprimeOutcome_of_prime h]
  · simp [isprimeOutcome_of_not_prime h]

/-- The opcode that names a command is that of the opcode map (R53). -/
theorem eq_op_of_commandOfOp {op : BitVec 4} {i : Instr} (h : commandOfOp op = some i) : op = i.op := by
  revert op
  cases i <;> decide

/-- A byte that decodes to a command is the byte of that command (R51, R53). -/
theorem eq_encode_of_decode {c : BitVec 8} {i : Instr} (h : decode c = .command i) : c = encode i := by
  obtain ⟨hzero, hop⟩ := (decode_eq_command_iff c i).mp h
  have hfields := byte_toNat_eq_fields c
  rw [hzero, eq_op_of_commandOfOp hop] at hfields
  apply BitVec.eq_of_toNat_eq
  rw [hfields]
  cases i <;> rfl

/-- The table of R110: with which cause a command fails, and exactly when. -/
theorem outcomeOf_eq_fail_iff (c : BitVec 8) (a b m : Word) (e : ErrorCause) :
    outcomeOf c a b m = .fail e ↔
      (e = .noInverse ∧ c = 0x04#8 ∧ (m.toNat = 0 ∨ Nat.gcd a.toNat m.toNat ≠ 1)) ∨
      (e = .zeroModulus ∧ (c = 0x01#8 ∨ c = 0x02#8) ∧ m.toNat = 0) ∨
      (e = .illegalCmd ∧ ¬(1 ≤ c.toNat ∧ c.toNat ≤ 5)) := by
  cases hdecode : decode c with
  | illegal why =>
    have hrange : ¬(1 ≤ c.toNat ∧ c.toNat ≤ 5) :=
      mt (exists_decode_eq_command_iff c).mpr ((exists_decode_eq_illegal_iff c).mp ⟨why, hdecode⟩)
    have hlegal : c ≠ 0x04#8 ∧ c ≠ 0x01#8 ∧ c ≠ 0x02#8 := by
      refine ⟨?_, ?_, ?_⟩ <;> rintro rfl <;> exact hrange (by decide)
    simp [outcomeOf_of_illegal hdecode, hrange, hlegal, eq_comm]
  | command i =>
    have hbyte : c = encode i := eq_encode_of_decode hdecode
    cases i with
    | modmul =>
      obtain rfl : c = 0x01#8 := hbyte
      simp [outcomeOf_of_modmul hdecode, modmulOutcome_eq_fail_iff]
    | modexp =>
      obtain rfl : c = 0x02#8 := hbyte
      simp [outcomeOf_of_modexp hdecode, modexpOutcome_eq_fail_iff]
    | gcd =>
      obtain rfl : c = 0x03#8 := hbyte
      simp [outcomeOf_of_gcd hdecode, gcdOutcome_ne_fail]
    | modinv =>
      obtain rfl : c = 0x04#8 := hbyte
      simp [outcomeOf_of_modinv hdecode, modinvOutcome_eq_fail_iff]
    | isprime =>
      obtain rfl : c = 0x05#8 := hbyte
      simp [outcomeOf_of_isprime hdecode, isprimeOutcome_ne_fail]

/-- Settles O32: a completion's code names the cause its command failed with, the table of R110 says when that is, and no
transaction sets an error flag. -/
theorem eachErrorCodeHasExactlyItsCause : Obligations.EachErrorCodeHasExactlyItsCause := by
  refine ⟨fun s hbusy hturn => ⟨_, step_engine_busy hturn hbusy, ?noInverse, ?zeroModulus, ?illegalCmd, ?record⟩,
    fun s tr rest => ⟨_, step_transact tr s rest, (transact_sets_no_flag tr s).2⟩⟩
  case noInverse => exact (complete_ecode_eq_code_iff _ .noInverse _).trans (by simp [outcomeOf_eq_fail_iff])
  case zeroModulus => exact (complete_ecode_eq_code_iff _ .zeroModulus _).trans (by simp [outcomeOf_eq_fail_iff])
  case illegalCmd => exact (complete_ecode_eq_code_iff _ .illegalCmd _).trans (by simp [outcomeOf_eq_fail_iff])
  case record =>
    obtain ⟨-, herr, hbound, -⟩ := complete_inv (outcomeOf s.opc s.A s.B s.M) { s with events := s.events.tail }
    exact ⟨hbound, herr⟩

/-! ### The completion event (R116) -/

@[simp] theorem completionPending_eq_done (s : State) : completionPending s = s.status.done := rfl

/-- The transactions that clear `DONE`: an acknowledgement and an acceptance, both only while idle, and a reset. -/
theorem transact_clears_done_iff {s : State} (hdone : s.status.done = true) (tr : Transaction) :
    (transact tr s).status.done = false ↔
      (s.status.busy = false ∧ ∃ v, tr = .regWrite 5#3 v ∧ v.toNat / 2 % 2 = 1) ∨
      (s.status.busy = false ∧ ∃ v, tr = .regWrite 4#3 v) ∨ tr = .reset := by
  cases tr with
  | regRead idx => simp [hdone]
  | regWrite idx v =>
    rw [transact_regWrite_status]
    split_ifs with hbusy hcmd hstatus
    · simp [hbusy, hdone]
    · simp [hbusy, hcmd]
    · simp [hbusy, hstatus, hdone, getLsbD_one_eq]
    · simp [hcmd, hstatus, hdone]
  | reset => simp

/-- Settles O42: on the engine's turn `DONE` can only rise, by a completion, and on the host's turn it can only fall, by the
transaction. -/
theorem completionEventIsSetAndClearedAsStated : Obligations.CompletionEventIsSetAndClearedAsStated := by
  intro s p
  rcases engine_or_host s with hturn | ⟨tr, rest, hnext⟩
  · have hno := not_hostNext_of_engineNext hturn
    cases hb : s.status.busy with
    | false => exact ⟨_, (step_engine hturn).trans (engineTurn_idle hb), by simp +contextual [hno]⟩
    | true => exact ⟨_, step_engine_busy hturn hb, by simp [hturn, hno]⟩
  · have hevents : s.events = .host tr :: rest := hnext
    refine ⟨_, step_host hnext, rfl, rfl, rfl, ?completes, fun hclear hset => ?rises, fun hdone => ?falls⟩
    case completes => simp [engineNext_of_hostNext hnext]
    case rises =>
      have hstays := (transact_sets_no_flag tr { s with events := rest }).1 hclear
      exact absurd hset (Bool.eq_false_iff.mp hstays)
    case falls =>
      refine (transact_clears_done_iff (by exact hdone) tr).trans ?_
      simp [hevents]

end Sys2Proof.Proofs
end

section
/-! PROOFS. Every step of the block (40_command_execution.md section 3, 70_reset_and_hazards.md section 5): it answers a next
state, and it keeps the invariants of the status and the result (10_state.md section 7). -/

namespace Sys2Proof.Proofs

open Sys2Proof.Machine Sys2Proof.Laws

/-! ### Every step answers a next state -/

/-- A step answers a next state with a property that a completion, an unused turn of the engine and a host transaction
each establish. -/
theorem step_next_of {s : State} {P : State → Prop}
    (hcomplete : engineNext s = true → s.status.busy = true →
      P (complete (outcomeOf s.opc s.A s.B s.M) { s with events := s.events.tail }))
    (hidle : engineNext s = true → s.status.busy = false → P { s with events := s.events.tail })
    (hhost : ∀ tr rest, HostNext tr rest s → P (transact tr { s with events := rest })) :
    ∃ t, step s = .next t ∧ P t := by
  rcases engine_or_host s with hturn | ⟨tr, rest, hnext⟩
  · cases hb : s.status.busy with
    | true => exact ⟨_, step_engine_busy hturn hb, hcomplete hturn hb⟩
    | false => exact ⟨_, (step_engine hturn).trans (engineTurn_idle hb), hidle hturn hb⟩
  · exact ⟨_, step_host hnext, hhost tr rest hnext⟩

/-- Settles O36: a completion, an unused turn and a transaction are all next states. -/
theorem everyStepAnswersANextState : Obligations.EveryStepAnswersANextState := by
  intro s
  simpa using step_next_of (s := s) (P := fun _ => True) (by simp) (by simp) (by simp)

/-- Settles O35: on its turn while idle the engine leaves the state as it is. -/
theorem engineHasNoStepWhileIdle : Obligations.EngineHasNoStepWhileIdle := by
  intro s hidle hturn
  rw [step_engine hturn]
  exact engineTurn_idle hidle

/-- Everything a transaction can do: reset the block, write while idle, or touch only the host's record and the count of
free values. -/
theorem transact_cases (tr : Transaction) (s : State) :
    (tr = .reset ∧ transact tr s = resetBlock s) ∨
    (s.status.busy = false ∧ ∃ idx v, tr = .regWrite idx v ∧ transact tr s = regWriteIdle idx v s) ∨
    ∃ (ret : List Word) (n : Nat), transact tr s = { s with returned := ret, draws := n } := by
  cases tr with
  | regRead idx => exact .inr (.inr ⟨_, _, transact_regRead idx s⟩)
  | regWrite idx v =>
    cases hb : s.status.busy with
    | true => exact .inr (.inr (transact_busy hb (by simp)))
    | false => exact .inr (.inl ⟨rfl, idx, v, rfl, regWrite_idle hb idx v⟩)
  | reset => exact .inl ⟨rfl, rfl⟩

/-! ### The invariants of the status and the result (10_state.md section 7) -/

/-- The registers after a reset meet the invariants. -/
theorem resetBlock_inv (s : State) : BlockInv (resetBlock s) :=
  ⟨by simp, by simp, by simp, by simp⟩

/-- Right after acceptance the invariants hold: `BUSY` alone is set. -/
theorem accept_inv (v : Word) (s : State) : BlockInv (accept v s) :=
  ⟨by simp, by simp, by simp, by simp⟩

/-- An acknowledgement keeps the invariants: `DONE` can only fall, and the error record and `R` stay. -/
theorem acknowledge_inv {s : State} (hinv : BlockInv s) (v : Word) : BlockInv (acknowledge v s) := by
  obtain ⟨hbusy, herr, hbound, hresult⟩ := hinv
  refine ⟨fun hb => ?_, by simpa using herr, by simpa using hbound, by simpa using hresult⟩
  obtain ⟨hdone, hrecord⟩ := hbusy (by simpa using hb)
  exact ⟨by simp [hdone], by simpa using hrecord⟩

/-- A write while idle keeps the invariants. -/
theorem regWriteIdle_inv {s : State} (hinv : BlockInv s) (idx : BitVec 3) (v : Word) :
    BlockInv (regWriteIdle idx v s) := by
  rcases regWriteIdle_cases idx v s with ⟨-, h⟩ | ⟨-, h⟩ | ⟨-, h⟩ | ⟨-, h⟩ | ⟨-, h⟩ | ⟨-, h⟩ <;> rw [h]
  · exact hinv
  · exact hinv
  · exact hinv
  · exact accept_inv v s
  · exact acknowledge_inv hinv v
  · exact hinv

/-- Every transaction keeps the invariants. -/
theorem transact_inv {s : State} (hinv : BlockInv s) (tr : Transaction) : BlockInv (transact tr s) := by
  rcases transact_cases tr s with ⟨-, h⟩ | ⟨-, idx, v, -, h⟩ | ⟨ret, n, h⟩ <;> rw [h]
  · exact resetBlock_inv s
  · exact regWriteIdle_inv hinv idx v
  · exact hinv

/-- Settles O40: a completion establishes the invariants, a transaction keeps them, an unused turn touches no register. -/
theorem everyStepKeepsTheInvariants : Obligations.EveryStepKeepsTheInvariants := by
  intro s hinv
  exact step_next_of (fun _ _ => complete_inv _ _) (fun _ _ => hinv) (fun tr rest _ => transact_inv (by exact hinv) tr)

/-- Settles O39: the reset state is what `Reset` makes of itself. -/
theorem invariantsHoldAfterReset : Obligations.InvariantsHoldAfterReset := by
  have hinv := resetBlock_inv State.reset
  rwa [resetBlock_reset] at hinv

end Sys2Proof.Proofs
end

section
/-! PROOFS. The clocked block (20_memory.md section 7, 70_reset_and_hazards.md): a reset edge (R130), what every clock edge
keeps, and the length of the busy phase (R67). -/

namespace Sys2Proof.Proofs

open Sys2Proof.Machine Sys2Proof.Laws

/-! ### One clock edge (R48, R67, R130) -/

/-- Settles O14: the edge is a reset of whatever state the read in that cycle leaves. -/
theorem resetPinHasPriorityOverAccessAndCompletion : Obligations.ResetPinHasPriorityOverAccessAndCompletion := by
  intro p completes s hrst
  exact ⟨_, edge_reset hrst completes s, rfl, rfl, rfl, rfl, rfl, rfl⟩

section
variable {c : Clocked} {p : PinsIn}

/-- A clock edge with `rst = 1`. -/
theorem tick_reset (hrst : p.rst = true) :
    c.tick p = .next { st := resetBlock (sampleRead p c.st), age := 0 } := by
  simpa using tick_eq (edge_reset hrst c.completesNow c.st)

/-- A clock edge while idle carries the host's access. -/
theorem tick_idle (hrst : p.rst = false) (hidle : c.st.status.busy = false) :
    c.tick p =
      .next { st := if p.writes then regWriteIdle p.addr p.wdata c.st else sampleRead p c.st, age := 0 } := by
  simpa [hidle] using tick_eq (edge_idle hrst hidle c.completesNow)

/-- A clock edge before the `LAT`-th makes the command in flight one edge older. -/
theorem tick_busy (hrst : p.rst = false) (hbusy : c.st.status.busy = true)
    (hage : c.age + 1 < Config.LAT c.st.opc c.st.A c.st.B c.st.M) :
    ∃ (ret : List Word) (n : Nat),
      c.tick p = .next { st := { c.st with returned := ret, draws := n }, age := c.age + 1 } := by
  obtain ⟨ret, n, hread⟩ := sampleRead_eq p c.st
  have hwait : c.completesNow = false := by simp [Clocked.completesNow, hage]
  have hedge : edge p c.completesNow c.st = .next { c.st with returned := ret, draws := n } := by
    rw [hwait, edge_busy hrst hbusy, hread]
  exact ⟨ret, n, by simpa [hbusy] using tick_eq hedge⟩

/-- The `LAT`-th clock edge completes the command in flight (R67). -/
theorem tick_completes (hrst : p.rst = false) (hbusy : c.st.status.busy = true)
    (hage : Config.LAT c.st.opc c.st.A c.st.B c.st.M ≤ c.age + 1) :
    c.tick p =
      .next { st := complete (outcomeOf c.st.opc c.st.A c.st.B c.st.M) (sampleRead p c.st), age := 0 } := by
  have hnow : c.completesNow = true := by simp [Clocked.completesNow, hbusy, hage]
  have hedge := edge_completes hrst hbusy
  rw [← hnow] at hedge
  simpa using tick_eq hedge

end

/-! ### The clocked invariant -/

/-- A state that meets the block's invariants meets the clocked invariant with no edge counted, since `LAT` is at least 1. -/
theorem clockedInv_of_age_zero {s : State} (hinv : BlockInv s) : ClockedInv { st := s, age := 0 } :=
  ⟨hinv, fun _ => Config.one_le_LAT _ _ _ _, fun _ => rfl⟩

/-- Settles O50: no edge is counted in the reset state. -/
theorem clockedInvariantHoldsAfterReset : Obligations.ClockedInvariantHoldsAfterReset :=
  clockedInv_of_age_zero invariantsHoldAfterReset

/-- Sampling a read keeps the invariants. -/
theorem sampleRead_inv {s : State} (hinv : BlockInv s) (p : PinsIn) : BlockInv (sampleRead p s) := by
  obtain ⟨ret, n, hread⟩ := sampleRead_eq p s
  rw [hread]
  exact hinv

/-- Settles O51: a reset, an access while idle and a completion leave the count at 0, and any other edge adds one to a
count that it does not bring to `LAT`. -/
theorem everyClockEdgeKeepsTheClockedInvariant : Obligations.EveryClockEdgeKeepsTheClockedInvariant := by
  intro c p ⟨hinv, hyoung, hzero⟩
  cases hrst : p.rst with
  | true => exact ⟨_, tick_reset hrst, clockedInv_of_age_zero (resetBlock_inv _), by simp⟩
  | false =>
    cases hb : c.st.status.busy with
    | false =>
      refine ⟨_, tick_idle hrst hb, clockedInv_of_age_zero ?_, by simp⟩
      split
      · exact regWriteIdle_inv hinv _ _
      · exact sampleRead_inv hinv p
    | true =>
      rcases Nat.lt_or_ge (c.age + 1) (Config.LAT c.st.opc c.st.A c.st.B c.st.M) with hage | hage
      · obtain ⟨ret, n, htick⟩ := tick_busy hrst hb hage
        exact ⟨_, htick, ⟨hinv, fun _ => hage, by simp [hb]⟩, fun _ _ _ => ⟨rfl, rfl, rfl, rfl, rfl, rfl⟩⟩
      · exact ⟨_, tick_completes hrst hb hage, clockedInv_of_age_zero (complete_inv _ _), by simp⟩

/-! ### The busy phase (40_command_execution.md section 2) -/

/-- An edge with a write to `CMD` while idle accepts a command, with no edge counted yet (R66). -/
theorem tick_accept {c : Clocked} {p : PinsIn} (hrst : p.rst = false) (hidle : c.st.status.busy = false)
    (hwrites : p.writes = true) (haddr : p.addr = 4#3) :
    c.tick p = .next { st := accept p.wdata c.st, age := 0 } := by
  rw [tick_idle hrst hidle, if_pos hwrites, haddr, regWriteIdle_CMD]

/-- A run of edges goes on after an edge. -/
theorem ticks_cons {c d : Clocked} {p : PinsIn} (h : c.tick p = .next d) (ps : List PinsIn) :
    Clocked.ticks (p :: ps) c = Clocked.ticks ps d := by
  rw [Clocked.ticks, h]

/-- Before its `LAT`-th edge a command is still in flight, and only the host's record and the count of free values have
moved. -/
theorem ticks_busy (ps : List PinsIn) {s : State} {age : Nat} (hrst : ∀ q ∈ ps, q.rst = false)
    (hbusy : s.status.busy = true) (hage : age + ps.length < Config.LAT s.opc s.A s.B s.M) :
    ∃ (ret : List Word) (n : Nat), Clocked.ticks ps { st := s, age := age } =
      .next { st := { s with returned := ret, draws := n }, age := age + ps.length } := by
  induction ps generalizing s age with
  | nil => exact ⟨s.returned, s.draws, rfl⟩
  | cons q qs ih =>
    obtain ⟨hq, hqs⟩ := List.forall_mem_cons.mp hrst
    rw [List.length_cons, Nat.add_comm qs.length, ← Nat.add_assoc] at hage ⊢
    obtain ⟨ret, n, htick⟩ := tick_busy (c := ⟨s, age⟩) hq hbusy (Nat.lt_of_le_of_lt (Nat.le_add_right _ _) hage)
    obtain ⟨ret', n', hticks⟩ := ih (s := { s with returned := ret, draws := n }) hqs hbusy hage
    exact ⟨ret', n', (ticks_cons htick qs).trans hticks⟩

/-- At its `LAT`-th edge a command completes. -/
theorem ticks_complete (ps : List PinsIn) {s : State} {age : Nat} (hrst : ∀ q ∈ ps, q.rst = false)
    (hbusy : s.status.busy = true) (hyoung : age < Config.LAT s.opc s.A s.B s.M)
    (hage : age + ps.length = Config.LAT s.opc s.A s.B s.M) :
    ∃ d, Clocked.ticks ps { st := s, age := age } = .next d ∧ d.st.status.busy = false ∧ d.st.status.done = true := by
  induction ps generalizing s age with
  | nil => exact absurd hage (Nat.ne_of_lt hyoung)
  | cons q qs ih =>
    obtain ⟨hq, hqs⟩ := List.forall_mem_cons.mp hrst
    rw [List.length_cons, Nat.add_comm qs.length, ← Nat.add_assoc] at hage
    rcases Nat.lt_or_ge (age + 1) (Config.LAT s.opc s.A s.B s.M) with hlt | hge
    · obtain ⟨ret, n, htick⟩ := tick_busy (c := ⟨s, age⟩) hq hbusy hlt
      obtain ⟨d, hticks, hd⟩ := ih (s := { s with returned := ret, draws := n }) hqs hbusy hlt hage
      exact ⟨d, (ticks_cons htick qs).trans hticks, hd⟩
    · obtain rfl : qs = [] := List.eq_nil_of_length_eq_zero (by omega)
      exact ⟨_, ticks_cons (tick_completes (c := ⟨s, age⟩) hq hbusy hge) [], complete_busy _ _, complete_done _ _⟩

/-- `v[7:0]` is the remainder by 256. -/
theorem lowByte_toNat (v : Word) : (lowByte v).toNat = v.toNat % 256 := by
  simp [lowByte]

@[simp] theorem accepted_word : Status.accepted.word = 0x01#8 := by decide

/-- Settles O17: the command accepted has no edge counted, so it is in flight before the `LAT`-th edge and completes at it. -/
theorem busyPhaseLastsLatencyCycles : Obligations.BusyPhaseLastsLatencyCycles := by
  intro c p hidle hrst hwrites haddr
  refine ⟨_, tick_accept hrst hidle hwrites haddr, rfl, rfl, rfl, lowByte_toNat p.wdata, Config.one_le_LAT _ _ _ _,
    fun ps hps => ⟨fun hfewer => ?inFlight, fun hexact => ?completes⟩⟩
  case inFlight =>
    obtain ⟨ret, n, hticks⟩ := ticks_busy ps (s := accept p.wdata c.st) (age := 0) hps rfl
      (by rw [Nat.zero_add]; exact hfewer)
    exact ⟨_, hticks, rfl, rfl, rfl, rfl, accepted_word, by simp [readValue_three]⟩
  case completes =>
    exact ticks_complete ps (s := accept p.wdata c.st) (age := 0) hps rfl (Config.one_le_LAT _ _ _ _)
      (by rw [Nat.zero_add]; exact hexact)

end Sys2Proof.Proofs
end

section
/-! PROOFS. Which step can change which register (10_state.md sections 2 to 4, 60_exceptions.md section 4). -/

namespace Sys2Proof.Proofs

open Sys2Proof.Machine Sys2Proof.Laws

/-! ### What a write while idle stores where (R36 to R40, R66) -/

/-- The registers after a write while idle, other than `STATUS`: each index writes its own, and `CMD` takes `OPC` and `R`. -/
theorem regWriteIdle_registers (idx : BitVec 3) (v : Word) (s : State) :
    (regWriteIdle idx v s).A = (if idx = 0#3 then v else s.A) ∧
    (regWriteIdle idx v s).B = (if idx = 1#3 then v else s.B) ∧
    (regWriteIdle idx v s).M = (if idx = 2#3 then v else s.M) ∧
    (regWriteIdle idx v s).R = (if idx = 4#3 then Config.unspecifiedWord s.draws else s.R) ∧
    (regWriteIdle idx v s).opc = (if idx = 4#3 then lowByte v else s.opc) := by
  rcases regWriteIdle_cases idx v s with
    ⟨rfl, h⟩ | ⟨rfl, h⟩ | ⟨rfl, h⟩ | ⟨rfl, h⟩ | ⟨rfl, h⟩ | ⟨rfl | rfl | rfl, h⟩ <;> simp [h]

/-! ### `ERR`, `ECODE` and `R` -/

/-- Of the transactions, only an acceptance and a reset change the error record: the acknowledgement keeps it (R39). -/
theorem transact_error_record_changed {tr : Transaction} {s : State}
    (h : (transact tr s).status.err ≠ s.status.err ∨ (transact tr s).status.ecode ≠ s.status.ecode) :
    (s.status.busy = false ∧ ∃ v, tr = .regWrite 4#3 v) ∨ tr = .reset := by
  cases tr with
  | regRead idx => simp at h
  | regWrite idx v =>
    rw [transact_regWrite_status] at h
    split_ifs at h with hbusy hcmd hstatus
    · simp at h
    · exact .inl ⟨Bool.eq_false_iff.mpr hbusy, v, by rw [hcmd]⟩
    · simp at h
    · simp at h
  | reset => exact .inr rfl

/-- Settles O43: the completion aside, only an acceptance and a reset reach the error record. -/
theorem errorRecordStaysUntilAcceptanceOrReset : Obligations.ErrorRecordStaysUntilAcceptanceOrReset := by
  intro s
  refine step_next_of (fun hturn hbusy => ?completion) (fun hturn hidle => ?idleTurn) fun tr rest hnext => ⟨?_, ?_⟩
  case completion => exact ⟨fun _ => .inl ⟨hbusy, hturn⟩, by simp [hbusy]⟩
  case idleTurn => exact ⟨by simp, by simp [not_hostNext_of_engineNext hturn]⟩
  · intro hchanged
    rcases transact_error_record_changed hchanged with ⟨hidle, v, rfl⟩ | rfl
    · exact .inr (.inl ⟨hidle, v, rest, hnext⟩)
    · exact .inr (.inr ⟨rest, hnext⟩)
  · rintro hidle ⟨v, rest', haccept⟩
    obtain ⟨rfl, -⟩ : tr = .regWrite 4#3 v ∧ rest = rest' := by simpa [hnext] using haccept
    simp [transact_regWrite_status, hidle]

/-- Settles O44: while idle the one write that reaches `R` is an acceptance. -/
theorem resultStaysUntilAcceptanceOrReset : Obligations.ResultStaysUntilAcceptanceOrReset := by
  intro s hidle
  refine step_next_of (fun _ hbusy => by simp [hidle] at hbusy) (fun _ _ => by simp) fun tr rest hnext => ?_
  have hevents : s.events = .host tr :: rest := hnext
  rcases transact_cases tr { s with events := rest } with ⟨rfl, h⟩ | ⟨-, idx, v, rfl, h⟩ | ⟨ret, n, h⟩
  · exact fun _ => .inr ⟨rest, hnext⟩
  · obtain ⟨-, -, -, hR, -⟩ := regWriteIdle_registers idx v { s with events := rest }
    rw [h, hR]
    by_cases hcmd : idx = 4#3
    · exact fun _ => .inl ⟨v, rest, hcmd ▸ hevents⟩
    · simp [hcmd]
  · simp [h]

/-! ### `A`, `B`, `M` -/

/-- Settles O45: a completion keeps the operands, and of the transactions only a reset and the write at a register's own
index reach it. -/
theorem operandsChangeOnlyByHostWriteOrReset : Obligations.OperandsChangeOnlyByHostWriteOrReset := by
  intro s
  refine step_next_of (fun _ _ => by simp) (fun _ _ => by simp) fun tr rest hnext => ?_
  have hevents : s.events = .host tr :: rest := hnext
  rcases transact_cases tr { s with events := rest } with ⟨rfl, -⟩ | ⟨hidle, idx, v, rfl, h⟩ | ⟨ret, n, h⟩
  · have hreset : ∃ rest, s.events = .host .reset :: rest := ⟨rest, hnext⟩
    exact ⟨fun _ => .inr hreset, fun _ => .inr hreset, fun _ => .inr hreset⟩
  · obtain ⟨hA, hB, hM, -, -⟩ := regWriteIdle_registers idx v { s with events := rest }
    rw [h, hA, hB, hM]
    refine ⟨fun hne => .inl ⟨hidle, rest, ?_⟩, fun hne => .inl ⟨hidle, rest, ?_⟩, fun hne => .inl ⟨hidle, rest, ?_⟩⟩
    all_goals
      split_ifs at hne ⊢ with hidx
      · exact hidx ▸ hevents
      · exact absurd rfl hne
  · simp [h]

/-! ### `OPC` -/

/-- No read shows `OPC` (R17). -/
theorem readValue_with_opc (idx : BitVec 3) (s : State) (c : BitVec 8) :
    readValue idx { s with opc := c } = readValue idx s := rfl

/-- A read does not look at `OPC`. -/
theorem afterRead_with_opc (idx : BitVec 3) (s : State) (c : BitVec 8) :
    afterRead idx { s with opc := c } = { afterRead idx s with opc := c } := by
  unfold afterRead
  cases portReg idx with
  | R => cases s.status.busy <;> rfl
  | A | B | M | CMD | STATUS | reserved => rfl

/-- While idle a transaction does the same to every other field, whatever `OPC` holds. -/
theorem transact_with_opc {s : State} (hidle : s.status.busy = false) (tr : Transaction) (c : BitVec 8) :
    { transact tr { s with opc := c } with opc := (transact tr s).opc } = transact tr s := by
  cases tr with
  | regRead idx =>
    simp only [transact_regRead, readValue_with_opc, afterRead_with_opc]
  | regWrite idx v =>
    rw [transact, transact, regWrite_idle hidle, regWrite_idle (by exact hidle), regWriteIdle, regWriteIdle]
    cases portReg idx <;> rfl
  | reset => rfl

/-- Settles O46: `OPC` is reached by an acceptance and a reset alone, and while idle no step looks at it. -/
theorem commandLatchIsHidden : Obligations.CommandLatchIsHidden := by
  intro s
  refine ⟨?written, fun c idx => readValue_with_opc idx s c, fun hidle c => ?hidden⟩
  case written =>
    refine step_next_of (fun _ _ => by simp) (fun _ _ => by simp) fun tr rest hnext => ?_
    have hevents : s.events = .host tr :: rest := hnext
    rcases transact_cases tr { s with events := rest } with ⟨rfl, -⟩ | ⟨hidle, idx, v, rfl, h⟩ | ⟨ret, n, h⟩
    · exact fun _ => .inr ⟨rest, hnext⟩
    · obtain ⟨-, -, -, -, hopc⟩ := regWriteIdle_registers idx v { s with events := rest }
      rw [h, hopc]
      split_ifs with hcmd
      · exact fun _ => .inl ⟨hidle, v, rest, hcmd ▸ hevents, lowByte_toNat v⟩
      · simp
    · simp [h]
  case hidden =>
    rcases engine_or_host s with hturn | ⟨tr, rest, hnext⟩
    · exact ⟨_, _, engineHasNoStepWhileIdle s hidle hturn, engineHasNoStepWhileIdle { s with opc := c } hidle hturn, rfl⟩
    · exact ⟨_, _, step_host hnext, step_host (s := { s with opc := c }) hnext,
        transact_with_opc (s := { s with events := rest }) hidle tr c⟩

end Sys2Proof.Proofs
end

section
/-! PROOFS. The commands (10_state.md section 2, the laws of 41_modmul.md to 44_modinv.md): what every command leaves alone,
how large its result can be, and what the results of several commands have to do with each other. -/

namespace Sys2Proof.Proofs

open Sys2Proof.Machine Sys2Proof.Laws

/-! ### The frame of the commands -/

/-- A completion writes `R` and `STATUS` and nothing else (R69, R70). -/
theorem complete_eq_update (o : CmdOutcome) (s : State) :
    complete o s = { s with R := (complete o s).R, status := (complete o s).status } := by
  cases o <;> rfl

/-- Executing a command is the completion of some outcome (R68). -/
theorem exists_exec_eq_complete (i : Instr) (s : State) : ∃ o, exec i s = .next (complete o s) := by
  cases i with
  | modmul => exact ⟨_, exec_modmul s⟩
  | modexp => exact ⟨_, exec_modexp s⟩
  | gcd => exact ⟨_, exec_gcd s⟩
  | modinv => exact ⟨_, exec_modinv s⟩
  | isprime => exact ⟨_, exec_isprime s⟩

/-- Settles O30: a command completes, and a completion writes `R` and `STATUS` alone. -/
theorem everyCommandChangesOnlyResultAndStatus : Obligations.EveryCommandChangesOnlyResultAndStatus := by
  intro i s
  obtain ⟨o, hexec⟩ := exists_exec_eq_complete i s
  exact ⟨_, _, hexec.trans (congrArg _ (complete_eq_update o s)), complete_busy o s, complete_done o s⟩

/-- Settles O29: the outcome that each of the three commands completes names no operand it ignores. -/
theorem ignoredOperandsHaveNoEffect : Obligations.IgnoredOperandsHaveNoEffect := by
  intro s b m
  exact ⟨⟨_, _, exec_gcd s, exec_gcd _, complete_R_eq_of_outcome _ _ _, complete_status_eq_of_outcome _ _ _⟩,
    ⟨_, _, exec_modinv s, exec_modinv _, complete_R_eq_of_outcome _ _ _, complete_status_eq_of_outcome _ _ _⟩,
    ⟨_, _, exec_isprime s, exec_isprime _, complete_R_eq_of_outcome _ _ _, complete_status_eq_of_outcome _ _ _⟩⟩

/-! ### The range of the results -/

/-- The greatest common divisor is at most the larger operand, `gcd(0, 0) = 0` included. -/
theorem gcd_le_max (a b : Nat) : Nat.gcd a b ≤ max a b := by
  rcases Nat.eq_zero_or_pos a with rfl | ha
  · simp
  · exact le_max_of_le_left (Nat.gcd_le_left b ha)

/-- Settles O22: the result is `Nat.gcd`, which both operands are multiples of and which every common divisor divides. -/
theorem gcdDividesBothAndIsTheLargest : Obligations.GcdDividesBothAndIsTheLargest := by
  intro s
  obtain ⟨v, hv, hexec⟩ := gcdWritesTheGreatestCommonDivisor.2 s
  refine ⟨_, hexec, ?_⟩
  rw [hv]
  refine ⟨fun hne => ⟨Nat.gcd_dvd_left _ _, Nat.gcd_dvd_right _ _, fun d hA hB => ?_⟩, gcd_le_max _ _⟩
  have hpos : 0 < Nat.gcd s.A.toNat s.B.toNat := by
    rw [Nat.gcd_pos_iff]
    omega
  exact Nat.le_of_dvd hpos (Nat.dvd_gcd hA hB)

/-- Settles O26: a remainder and a normalized inverse are below the modulus, a greatest common divisor is bounded by the
operands, and ISPRIME answers 0 or 1. -/
theorem resultsStayInTheirRanges : Obligations.ResultsStayInTheirRanges := by
  intro s
  refine ⟨⟨_, exec_modmul s, fun hm => ?modmul⟩, ⟨_, exec_modexp s, fun hm => ?modexp⟩,
    ⟨_, exec_modinv s, fun hm => ?modinv⟩, ?gcd, ?isprime⟩
  case modmul =>
    rw [modmulOutcome_of_modulus_ne_zero hm]
    exact Nat.mod_lt _ (Nat.pos_of_ne_zero hm)
  case modexp =>
    obtain ⟨v, hv, hout⟩ := modexpOutcome_of_modulus_ne_zero hm s.A s.B
    rw [hout]
    exact hv.trans_lt (Nat.mod_lt _ (Nat.pos_of_ne_zero hm))
  case modinv =>
    by_cases hgcd : Nat.gcd s.A.toNat s.M.toNat = 1
    · obtain ⟨d, hlt, -, hout⟩ := modinvOutcome_of_invertible hm hgcd
      rw [hout]
      exact hlt
    · rw [modinvOutcome_of_not_invertible (.inr hgcd)]
      exact Nat.pos_of_ne_zero hm
  case gcd =>
    obtain ⟨t, hexec, -, hbound⟩ := gcdDividesBothAndIsTheLargest s
    exact ⟨t, hexec, hbound⟩
  case isprime =>
    obtain ⟨v, hexec, hv, -⟩ := isprimeDecidesPrimality.2 s
    exact ⟨_, hexec, by rcases hv with h | h <;> simp [h]⟩

/-! ### Laws that join several commands -/

/-- Settles O24: the product of the operand and its inverse leaves 1 modulo `M`, since `M` is more than 1. -/
theorem inverseIsVerifiedByOneModmul : Obligations.InverseIsVerifiedByOneModmul := by
  intro s hm hgcd
  have hne : s.M.toNat ≠ 0 := by omega
  obtain ⟨d, -, hinv, -, hmodinv⟩ := (modinvWritesTheUniqueInverseOrFails.2 s).2 hne hgcd
  obtain ⟨v, hv, hmodmul⟩ := (modmulWritesTheExactProductModuloM.2
    { s with R := d, status := Status.completedOk, B := d }).2 hne
  refine ⟨_, _, hmodinv, hmodmul, rfl, rfl, ?_⟩
  rw [← Nat.mod_eq_of_lt hm, ← hinv]
  exact hv

/-- Fermat's little theorem, for an exponent that is 1 modulo `p - 1`; it holds for multiples of `p` too. -/
theorem pow_modEq_self_of_prime {p k : Nat} (hp : p.Prime) (hk : 1 ≤ k) (hdvd : p - 1 ∣ k - 1) (m : Nat) :
    m ^ k ≡ m [MOD p] := by
  rw [← Int.natCast_modEq_iff]
  simpa using Int.ModEq.pow_eq_pow hp hdvd hk one_pos (m : Int)

/-- The correctness of RSA: a power whose exponent is 1 modulo `(p - 1) * (q - 1)` is the identity modulo `p * q`. -/
theorem pow_modEq_self_of_rsa {p q k : Nat} (hp : p.Prime) (hq : q.Prime) (hpq : p ≠ q) (hk : 1 ≤ k)
    (hdvd : (p - 1) * (q - 1) ∣ k - 1) (m : Nat) : m ^ k ≡ m [MOD p * q] :=
  (Nat.modEq_and_modEq_iff_modEq_mul ((Nat.coprime_primes hp hq).mpr hpq)).mp
    ⟨pow_modEq_self_of_prime hp hk (dvd_of_mul_right_dvd hdvd) m,
      pow_modEq_self_of_prime hq hk (dvd_of_mul_left_dvd hdvd) m⟩

/-- Of two distinct primes one is odd, so `(p - 1) * (q - 1)` is at least 2. -/
theorem one_lt_totient {p q : Nat} (hp : p.Prime) (hq : q.Prime) (hpq : p ≠ q) : 1 < (p - 1) * (q - 1) := by
  have hp2 := hp.two_le
  have hq2 := hq.two_le
  rcases Nat.lt_or_gt_of_ne hpq with hlt | hlt
  · calc 1 < 1 * (q - 1) := by omega
      _ ≤ (p - 1) * (q - 1) := Nat.mul_le_mul_right _ (by omega)
  · calc 1 < (p - 1) * 1 := by omega
      _ ≤ (p - 1) * (q - 1) := Nat.mul_le_mul_left _ (by omega)

/-- Decrypting what was encrypted: with `e * d` equal to 1 modulo `(p - 1) * (q - 1)` the two powers undo each other. -/
theorem decrypt_encrypt {p q e d m : Nat} (hp : p.Prime) (hq : q.Prime) (hpq : p ≠ q)
    (hinv : e * d % ((p - 1) * (q - 1)) = 1 % ((p - 1) * (q - 1))) (hm : m < p * q) :
    (m ^ e % (p * q)) ^ d % (p * q) = m := by
  have hmod : 1 ≡ e * d [MOD (p - 1) * (q - 1)] := hinv.symm
  have hpos : 1 ≤ e * d := by
    rw [Nat.mod_eq_of_lt (one_lt_totient hp hq hpq)] at hinv
    by_contra hzero
    simp [show e * d = 0 by omega] at hinv
  have hpow : (m ^ e % (p * q)) ^ d ≡ m [MOD p * q] := calc
    (m ^ e % (p * q)) ^ d ≡ (m ^ e) ^ d [MOD p * q] := (Nat.mod_modEq _ _).pow d
    _ = m ^ (e * d) := (pow_mul m e d).symm
    _ ≡ m [MOD p * q] := pow_modEq_self_of_rsa hp hq hpq hpos ((Nat.modEq_iff_dvd' hpos).mp hmod) m
  exact Eq.trans hpow (Nat.mod_eq_of_lt hm)

/-- Settles O27: MODINV delivers an inverse of the exponent, and both MODEXPs deliver their powers. -/
theorem encryptThenDecryptReturnsThePlaintext : Obligations.EncryptThenDecryptReturnsThePlaintext := by
  intro p q s1 s2 s3 hp hq hpq hphi hcoprime hn hlt he hM
  have hphi0 : s1.M.toNat ≠ 0 := by
    have := one_lt_totient hp hq hpq
    omega
  have hn0 : s2.M.toNat ≠ 0 := by omega
  obtain ⟨d, -, hinv, -, hmodinv⟩ := (modinvWritesTheUniqueInverseOrFails.2 s1).2 hphi0 (hphi ▸ hcoprime)
  obtain ⟨c, hc, hencrypt⟩ := (modexpWritesThePowerModuloM.2 s2).2 hn0
  obtain ⟨v, hv, hdecrypt⟩ := (modexpWritesThePowerModuloM.2 { s3 with A := c, B := d }).2 (by simpa [hM] using hn0)
  refine ⟨_, _, _, hmodinv, hencrypt, hdecrypt, rfl, rfl, rfl, BitVec.eq_of_toNat_eq ?_⟩
  rw [hphi] at hinv
  calc v.toNat = (s2.A.toNat ^ s1.A.toNat % (p * q)) ^ d.toNat % (p * q) := by rw [hv, hc, hM, hn, he]
    _ = s2.A.toNat := decrypt_encrypt hp hq hpq hinv hlt

end Sys2Proof.Proofs
end

section
/-! PROOFS. The encoding in both directions (30_encoding.md sections 1 and 3), and the latched byte as the instruction that
the engine's step executes (40_command_execution.md section 2). -/

namespace Sys2Proof.Proofs

open Sys2Proof.Machine Sys2Proof.Laws

/-- The byte of a command decodes to it (R51, R53). -/
theorem decode_encode (i : Instr) : decode (encode i) = .command i := by
  cases i <;> decide

/-- Settles O1: the ten bytes of the opcode map, decoded. -/
theorem commandBytesDecodeToTheirCommands : Obligations.CommandBytesDecodeToTheirCommands :=
  ⟨decode_encode .modmul, decode_encode .modexp, decode_encode .gcd, decode_encode .modinv, decode_encode .isprime,
    by decide, by decide, by decide, by decide, by decide⟩

/-- Settles O2: the decoder undoes the encoder, and a byte that decodes to a command is its encoding. -/
theorem decodeAndEncodeAgree : Obligations.DecodeAndEncodeAgree :=
  ⟨decode_encode, fun _ _ => eq_encode_of_decode⟩

/-- A row of the opcode table is the command that its low 8 bits decode to (R50). -/
theorem decodeTableWord_eq_some_iff (nbits w : Nat) (i : Instr) :
    decodeTableWord nbits w = some i ↔ decode (BitVec.ofNat 8 (w % 2 ^ nbits)) = .command i := by
  unfold decodeTableWord
  cases decode (BitVec.ofNat 8 (w % 2 ^ nbits)) <;> simp

/-- With the byte of a command latched, `Complete` executes the command (R68). -/
theorem completeStep_of_command {s : State} {i : Instr} (h : decode s.opc = .command i) :
    completeStep s = exec i s := by
  rw [completeStep, h]

/-- Settles O33: while busy the engine's turn is `Complete`, which executes the latched command. -/
theorem stepRunsTheLatchedCommand : Obligations.StepRunsTheLatchedCommand := by
  intro s i hbusy hturn hdecode
  rw [step_engine hturn, engineTurn, if_pos hbusy]
  exact completeStep_of_command hdecode

/-- Settles O37: the placed byte is latched with `BUSY` set and the engine's turn next. -/
theorem placedCommandRunsNext : Obligations.PlacedCommandRunsNext := by
  intro s w i hrow
  have hbyte : BitVec.ofNat 8 (w % 2 ^ 8) = BitVec.ofNat 8 w := by
    apply BitVec.eq_of_toNat_eq
    simp
  have hdecode := (decodeTableWord_eq_some_iff 8 w i).mp hrow
  rw [stepRunsTheLatchedCommand (s.withFetchWord 8 w) i rfl rfl hdecode, ← hbyte]
  rfl

end Sys2Proof.Proofs
end

section
/-! PROOFS. Runs: a reset discards the command in flight (R132), a command has the outcome fixed at its acceptance
(40_command_execution.md section 2), and every busy phase ends (70_reset_and_hazards.md section 4). -/

namespace Sys2Proof.Proofs

open Sys2Proof.Machine Sys2Proof.Laws

/-! ### Turns of the engine while idle, transactions while busy -/

/-- Turns of the engine while idle change nothing. -/
theorem runEvents_idle_turns {s : State} (hidle : s.status.busy = false) (n : Nat) :
    runEvents (List.replicate n .complete) s = .next s := by
  induction n with
  | zero => exact runEvents_nil s
  | succ n ih =>
    have hstep := engineHasNoStepWhileIdle { s with events := List.replicate (n + 1) .complete ++ s.events } hidle rfl
    rw [runEvents, List.length_replicate] at ih ⊢
    exact (runs_succ hstep n).trans ih

/-- Transactions other than a reset leave every register alone while busy. -/
theorem runEvents_busy_transactions {s : State} (hbusy : s.status.busy = true) {during : List Transaction}
    (hreset : ∀ tr ∈ during, tr ≠ .reset) (evs : List Event) :
    ∃ (ret : List Word) (n : Nat),
      runEvents (during.map .host ++ evs) s = runEvents evs { s with returned := ret, draws := n } := by
  induction during generalizing s with
  | nil => exact ⟨s.returned, s.draws, rfl⟩
  | cons tr during ih =>
    obtain ⟨htr, hduring⟩ := List.forall_mem_cons.mp hreset
    obtain ⟨ret, n, htransact⟩ := transact_busy hbusy htr
    rw [List.map_cons, List.cons_append, runEvents_host, htransact]
    exact ih (s := { s with returned := ret, draws := n }) hbusy hduring

/-! ### A reset ends a busy phase for good (R132) -/

/-- Settles O15: the reset state is idle, so the turns of the engine that follow do nothing; and by the rules of `BUSY` a
busy phase ends in no other way than by a completion or a reset. -/
theorem resetWhileBusyDiscardsTheCommand : Obligations.ResetWhileBusyDiscardsTheCommand := by
  intro s n hbusy
  obtain ⟨t, hstep, -, hfalls, -⟩ := busyRisesAtAcceptanceAndFallsAtCompletionOrReset s
  refine ⟨⟨t, hstep, (hfalls hbusy).mp⟩, ?_⟩
  have hrun : runEvents (.host .reset :: List.replicate n .complete) { s with events := [] } =
      .next (resetBlock { s with events := [] }) := by
    rw [runEvents_host]
    exact runEvents_idle_turns afterReset_busy n
  rw [runEvents, List.append_nil, List.length_cons, List.length_replicate] at hrun
  exact hrun

/-! ### The outcome of an accepted command -/

/-- A run from a state whose events begin with `evs` is the run through `evs`. -/
theorem runs_eq_runEvents {s : State} {evs rest : List Event} (h : s.events = evs ++ rest) :
    runs evs.length s = runEvents evs { s with events := rest } := by
  rw [runEvents, ← h]

/-- A write while idle, as the first event of a run. -/
theorem runEvents_write_idle {s : State} (hidle : s.status.busy = false) (idx : BitVec 3) (v : Word) (evs : List Event) :
    runEvents (.host (.regWrite idx v) :: evs) s = runEvents evs (regWriteIdle idx v s) := by
  rw [runEvents_host, transact, regWrite_idle hidle]

/-- An accepted command completes with the outcome of its byte on the operands at acceptance, if the engine's turn comes
next. -/
theorem runEvents_accept_complete {s : State} (hidle : s.status.busy = false) (v : Word) :
    runEvents [.host (.regWrite 4#3 v), .complete] s =
      .next (complete (outcomeOf (lowByte v) s.A s.B s.M) (accept v s)) := by
  rw [runEvents_write_idle hidle, regWriteIdle_CMD, runEvents_complete rfl, runEvents_nil]
  rfl

/-- Whatever the host does between acceptance and completion, short of a reset, the command has that same outcome, since
the completion finds the byte and the operands of the acceptance. -/
theorem runEvents_accept_during_complete {s : State} (hidle : s.status.busy = false) (v : Word)
    {during : List Transaction} (hreset : ∀ tr ∈ during, tr ≠ .reset) :
    ∃ (ret : List Word) (n : Nat),
      runEvents (.host (.regWrite 4#3 v) :: (during.map .host ++ [.complete])) s =
        .next (complete (outcomeOf (lowByte v) s.A s.B s.M) { accept v s with returned := ret, draws := n }) := by
  obtain ⟨ret, n, hduring⟩ := runEvents_busy_transactions (s := accept v s) rfl hreset [.complete]
  refine ⟨ret, n, ?_⟩
  rw [runEvents_write_idle hidle, regWriteIdle_CMD, hduring, runEvents_complete rfl, runEvents_nil]
  rfl

/-- Settles O47: the run ends with the completion of the outcome at acceptance, which writes `R` and `STATUS` alone. -/
theorem outcomeIsFixedAtAcceptance : Obligations.OutcomeIsFixedAtAcceptance := by
  intro s v during rest hidle hreset hevents
  obtain ⟨ret, n, hcommand⟩ := runEvents_accept_during_complete (s := { s with events := rest }) hidle v hreset
  have hsplit : s.events = .host (.regWrite 4#3 v) :: (during.map .host ++ [.complete]) ++ rest := by simp [hevents]
  have hrun := (runs_eq_runEvents hsplit).trans hcommand
  simp only [List.length_cons, List.length_append, List.length_map, List.length_nil] at hrun
  rw [← lowByte_eq]
  refine ⟨_, hrun, by simp, by simp, by simp, by simp, by simp, fun w hok => ?ok, fun e hfail => ?fail⟩
  case ok =>
    simp only [hok]
    exact ⟨rfl, completedOk_word⟩
  case fail =>
    simp only [hfail]
    exact ⟨rfl, rfl⟩

/-- Settles O48: the three writes store the operands, and the command accepted next completes on them. -/
theorem commandUsesTheOperandsJustWritten : Obligations.CommandUsesTheOperandsJustWritten := by
  intro s a b m v rest hidle
  refine (runs_eq_runEvents (evs := [.host (.regWrite 0#3 a), .host (.regWrite 1#3 b), .host (.regWrite 2#3 m),
    .host (.regWrite 4#3 v), .complete]) (rest := rest) rfl).trans ?_
  rw [runEvents_write_idle (by exact hidle), regWriteIdle_A, runEvents_write_idle (by exact hidle), regWriteIdle_B,
    runEvents_write_idle (by exact hidle), regWriteIdle_M, runEvents_accept_complete (by exact hidle), accept_eq, lowByte_eq]
  rfl

/-- On operands that are all 0 no command has a result other than 0. -/
theorem outcomeOf_zero_operands (c : BitVec 8) :
    outcomeOf c Word.zero Word.zero Word.zero = .ok Word.zero ∨
    ∃ e, outcomeOf c Word.zero Word.zero Word.zero = .fail e := by
  cases hdecode : decode c with
  | illegal why => exact .inr ⟨_, outcomeOf_of_illegal hdecode _ _ _⟩
  | command i =>
    obtain rfl := eq_encode_of_decode hdecode
    cases i with
    | modmul | modexp | modinv => exact .inr ⟨_, rfl⟩
    | gcd | isprime => exact .inl rfl

/-- The outcomes on operands that are all 0: MODMUL and MODEXP find a zero modulus and MODINV no inverse, GCD and ISPRIME
answer 0, and the byte 0 is illegal. -/
theorem outcomes_on_zero_operands :
    outcomeOf 0x01#8 Word.zero Word.zero Word.zero = .fail .zeroModulus ∧
    outcomeOf 0x02#8 Word.zero Word.zero Word.zero = .fail .zeroModulus ∧
    outcomeOf 0x03#8 Word.zero Word.zero Word.zero = .ok Word.zero ∧
    outcomeOf 0x04#8 Word.zero Word.zero Word.zero = .fail .noInverse ∧
    outcomeOf 0x05#8 Word.zero Word.zero Word.zero = .ok Word.zero ∧
    outcomeOf 0x00#8 Word.zero Word.zero Word.zero = .fail .illegalCmd :=
  ⟨rfl, rfl, rfl, rfl, rfl, rfl⟩

/-- Settles O38: after a reset all operands are 0, and each byte named decides its outcome on them. -/
theorem commandsStraightAfterResetHaveTheirResults : Obligations.CommandsStraightAfterResetHaveTheirResults := by
  intro v
  have hrun : runs 2 { State.reset with events := [.host (.regWrite 4#3 v), .complete] } =
      .next (complete (outcomeOf (lowByte v) Word.zero Word.zero Word.zero) (accept v State.reset)) :=
    runEvents_accept_complete (s := State.reset) rfl v
  obtain ⟨-, -, hnoInverse, hzeroModulus, hillegalCmd⟩ := completionWritesResultAndStatus (accept v State.reset)
  obtain ⟨hmodmul, hmodexp, hgcd, hmodinv, hisprime, hillegal⟩ := outcomes_on_zero_operands
  refine ⟨_, hrun, ?result, ?_⟩
  case result =>
    rcases outcomeOf_zero_operands (lowByte v) with hout | ⟨e, hout⟩ <;> rw [hout] <;> rfl
  rw [lowByte_eq]
  refine ⟨fun h => ?_, fun h => ?_, fun h => ?_, fun h => ?_, fun h => ?_, fun h => ?_⟩ <;> rw [h]
  · rwa [hmodmul]
  · rwa [hmodexp]
  · rw [hgcd]
    exact completedOk_word
  · rwa [hmodinv]
  · rw [hisprime]
    exact completedOk_word
  · rwa [hillegal]

/-! ### Every busy phase ends -/

/-- A final state stays as it is. -/
theorem step_final {s : State} (h : Final s) : step s = .next s := by
  obtain ⟨hidle, hevents⟩ := h
  have hturn : engineNext s = true := by simp [engineNext, hevents]
  rw [engineHasNoStepWhileIdle s hidle hturn, hevents, List.tail_nil, ← hevents]

/-- A run from a final state stays in it. -/
theorem runs_final {s : State} (h : Final s) (n : Nat) : runs n s = .next s := by
  induction n with
  | zero => exact runs_zero s
  | succ n ih => exact (runs_succ (step_final h) n).trans ih

/-- A step uses up one event. -/
theorem step_events {s t : State} (h : step s = .next t) : t.events = s.events.tail := by
  rcases step_cases h with ⟨-, -, rfl⟩ | ⟨-, -, rfl⟩ | ⟨tr, rest, hnext, rfl⟩
  · simp
  · rfl
  · rw [transact_events, hnext, List.tail_cons]

/-- With no event left, one step leads to a final state: a command in flight completes. -/
theorem step_of_no_event {s : State} (h : s.events = []) : ∃ t, step s = .next t ∧ Final t := by
  refine step_next_of (fun _ _ => ⟨complete_busy _ _, by simp [h]⟩) (fun _ hidle => ⟨hidle, by simp [h]⟩)
    fun tr rest hnext => ?_
  simp [hnext] at h

/-- Settles O49: each step uses up an event, and the one after the last leads to a final state, which stays. -/
theorem everyBusyPhaseEnds : Obligations.EveryBusyPhaseEnds := by
  intro s
  induction hevents : s.events generalizing s with
  | nil =>
    obtain ⟨t, hstep, hfinal⟩ := step_of_no_event hevents
    refine ⟨t, hfinal, fun n => ?_⟩
    rw [List.length_nil, Nat.add_comm, Nat.add_zero]
    exact (runs_succ hstep n).trans (runs_final hfinal n)
  | cons e rest ih =>
    obtain ⟨u, hstep⟩ := everyStepAnswersANextState s
    obtain ⟨t, hfinal, hrun⟩ := ih u (by rw [step_events hstep, hevents, List.tail_cons])
    refine ⟨t, hfinal, fun n => ?_⟩
    rw [List.length_cons, Nat.add_right_comm]
    exact (runs_succ hstep _).trans (hrun n)

end Sys2Proof.Proofs
end
